-- ==== Sys2Proof/Word.lean ====
section
/-! DEFINITION. The widths of the block's values (00_scope.md R2, R7, R8): a field element is 8 bits, a bus word and
a command word are 32 bits, a byte address inside the block's window is 12 bits. -/

namespace Sys2Proof

/-- A field element, `ELEM_BITS` = 8 bits (R2, R7). -/
abbrev Byte := BitVec 8

/-- One bus word, which is also one command word, `BUS_DATA_BITS` = 32 bits (R7, R80). -/
abbrev Word := BitVec 32

/-- A byte address inside the window, `addr[11:0]`, `BUS_ADDR_BITS` = 12 bits (R7, R50). -/
abbrev Offset := BitVec 12

end Sys2Proof
end

