-- ==== Sys2Proof/Syntax.lean ====
section
/-! DEFINITION. The seven commands of 30_encoding.md R82, one constructor per row of spec/opcode_table.json, the
assembler's pseudo-commands of R90, and the reasons a command word is illegal (R84 to R86). Field elements are bytes;
an index, a degree and a point count are unsigned integers (R8, R83), bounded in WellFormed.lean. -/

namespace Sys2Proof

/-- The commands (R82, R83). -/
inductive Instr where
  /-- ADD a, b (R113). -/
  | add (a b : Byte)
  /-- MUL a, b (R114). -/
  | mul (a b : Byte)
  /-- DIV a, b: dividend a, divisor b (R115). -/
  | div (a b : Byte)
  /-- LOG a (R116). -/
  | log (a : Byte)
  /-- EXP i: the exponent index i (R117). -/
  | exp (i : Nat)
  /-- EVAL x, d: the evaluation point x and the degree d (R143). -/
  | eval (x : Byte) (d : Nat)
  /-- INTERP m: the point count m, encoded as m − 1 (R83, R147). -/
  | interp (m : Nat)
deriving DecidableEq, Repr

/-- The pseudo-commands SUB, SQR and INV of R90. The fourth row of R90, ISSUE, is a bus statement:
`Machine.HostStmt.issue`. -/
inductive Pseudo where
  | sub (a b : Byte)
  | sqr (a : Byte)
  | inv (a : Byte)
deriving DecidableEq, Repr

/-- Why a command word is illegal, in the order of priority of R202. -/
inductive Reject where
  /-- RSV ≠ 0 (R84). -/
  | reservedField
  /-- OPC is 0x0 or 0x8 to 0xF (R86). -/
  | reservedOpcode
  /-- An operand field that the command does not use is not 0 (R85). -/
  | unusedField
deriving DecidableEq, Repr

end Sys2Proof
end

