-- ==== Sys2Proof/WellFormed.lean ====
section
/-! DEFINITION. Which terms of `Instr` the assembler accepts (30_encoding.md R83, R89): "an operand out of range is an
assembly error". -/

namespace Sys2Proof

/-- Every operand is in the range that its field encodes (R83, R89): an index and a degree in 0..255, a point count in
1..256. A byte operand is always in range. -/
def Instr.wellFormed : Instr → Bool
  | .add _ _ => true
  | .mul _ _ => true
  | .div _ _ => true
  | .log _ => true
  | .exp i => decide (i ≤ 255)
  | .eval _ d => decide (d ≤ 255)
  | .interp m => decide (1 ≤ m) && decide (m ≤ 256)

end Sys2Proof
end

