-- ==== Sys2Proof/Decode.lean ====
section
/-! DEFINITION. Reading a command word (30_encoding.md R80 to R88) and writing one (R81, R82, R89, R90). The decoder is
total on all 2³² words and rejects by name; its checks run in the order of R88, which is the priority of R202. -/

namespace Sys2Proof

/-- Field OPC, `w[31:28]` (R81). -/
def fieldOPC (w : Word) : BitVec 4 := w.extractLsb' 28 4

/-- Field RSV, `w[27:16]` (R81). -/
def fieldRSV (w : Word) : BitVec 12 := w.extractLsb' 16 12

/-- Field A, `w[15:8]` (R81). -/
def fieldA (w : Word) : Byte := w.extractLsb' 8 8

/-- Field B, `w[7:0]` (R81). -/
def fieldB (w : Word) : Byte := w.extractLsb' 0 8

/-- The decoder of R88, without the arithmetic: the command that w encodes, or why w is illegal. -/
def decode (w : Word) : Except Reject Instr :=
  if fieldRSV w ≠ 0 then .error .reservedField else
  match (fieldOPC w).toNat with
  | 1 => .ok (.add (fieldA w) (fieldB w))
  | 2 => .ok (.mul (fieldA w) (fieldB w))
  | 3 => .ok (.div (fieldA w) (fieldB w))
  | 4 => if fieldB w ≠ 0 then .error .unusedField else .ok (.log (fieldA w))
  | 5 => if fieldB w ≠ 0 then .error .unusedField else .ok (.exp (fieldA w).toNat)
  | 6 => .ok (.eval (fieldA w) (fieldB w).toNat)
  | 7 => if fieldA w ≠ 0 then .error .unusedField else .ok (.interp ((fieldB w).toNat + 1))
  | _ => .error .reservedOpcode

/-- The word `{OPC, RSV = 0, A, B}` (R81). -/
def packWord (opc : BitVec 4) (a b : Byte) : Word := opc ++ (0 : BitVec 12) ++ a ++ b

/-- The command word of a well-formed command (R82, R89); unused fields are 0 (R85). DESIGN CHOICE
(notes/assumptions/11.md): a term out of range, which has no word (R89), gives the low 8 bits of its operand. -/
def encode : Instr → Word
  | .add a b => packWord 0x1 a b
  | .mul a b => packWord 0x2 a b
  | .div a b => packWord 0x3 a b
  | .log a => packWord 0x4 a 0
  | .exp i => packWord 0x5 (BitVec.ofNat 8 i) 0
  | .eval x d => packWord 0x6 x (BitVec.ofNat 8 d)
  | .interp m => packWord 0x7 0 (BitVec.ofNat 8 (m - 1))

/-- The assembler of R89: none is the assembly error of an operand out of range. -/
def assemble (i : Instr) : Option Word := if i.wellFormed then some (encode i) else none

/-- The expansions of R90. -/
def Pseudo.expand : Pseudo → Instr
  | .sub a b => .add a b
  | .sqr a => .mul a a
  | .inv a => .div 0x01 a

/-- What the decoder reads from an instruction of nbits bits, as spec/opcode_table.json numbers them (every row has 32,
R80); a bit above nbits is 0. -/
def decodeTableWord (nbits w : Nat) : Option Instr :=
  match decode (BitVec.ofNat 32 (w % 2 ^ nbits)) with
  | .ok i => some i
  | .error _ => none

end Sys2Proof
end

