-- ==== Sys2Proof/Config.lean ====
section
/-! DEFINITION. The implementation parameters of 00_scope.md R7, the platform's parameter GF_BASE (20_memory.md R50), and
the one ROM entry whose content the spec leaves open. LATENCY, the remaining OPEN parameter of R7, is not a number here:
it is the schedule `State.turns`, over which every claim ranges (notes/assumptions/1.md). -/

namespace Sys2Proof.Config

/-- FIELD_POLY (R2, R7): x⁸+x⁴+x³+x+1 as a 9-bit integer. -/
def fieldPoly : BitVec 9 := 0x11B

/-- GENERATOR (R7, R101, decision D17). -/
def generator : Byte := 0x03

/-- LOG_ENTRIES (R7, R27). -/
def logEntries : Nat := 256

/-- EXP_ENTRIES (R7, R28; conflict C1 of 90_conflicts.md is resolved this way). -/
def expEntries : Nat := 255

/-- COEF_DEPTH (R7, R30). -/
def coefDepth : Nat := 256

/-- POINT_DEPTH (R7, R31). -/
def pointDepth : Nat := 256

/-- The size of the window: 4 KiB, reached by BUS_ADDR_BITS = 12 bits (R7, R50). -/
def windowBytes : Nat := 4096

/-- GF_BASE (R50, decision D3): where the platform places the window in the host's memory map. OPEN
(notes/assumptions/17.md): nothing constrains it, so a claim holds for every base. -/
opaque gfBase : Nat

/-- The content of `LOG[0]`: the entry exists, its content is not specified, and no command can observe it
(R27, R102). A free value (notes/assumptions/6.md): nothing constrains it. -/
opaque logOfZero : Byte

end Sys2Proof.Config
end

