-- ==== Sys2Proof/Machine/State.lean ====
section
/-! DEFINITION. The state of the block (10_state.md R20 to R39), of the host that drives its port (00_scope.md R13,
30_encoding.md R91), and the reasons a step can stop. The log and exp tables are constants, not state (R29, R39):
Machine/Tables.lean. -/

namespace Sys2Proof.Machine

/-- The command error codes of 60_exceptions.md R200 (code 0, NONE, is the absence of an error). -/
inductive ErrCode where
  | divByZero
  | duplicateCoordinate
  | logOfZero
  | expOutOfRange
  | illegalCommand
deriving DecidableEq, Repr

/-- The response to one bus access (R11, R35, R207). -/
inductive BusResp where
  /-- OKAY to a read, with the word read. -/
  | readOkay (v : Word)
  /-- OKAY to a write. -/
  | writeOkay
  /-- BUS_ERROR (R58, R207). -/
  | busError
deriving DecidableEq, Repr

/-- One statement of the host (R11, R91). An address is the host's byte address, `GF_BASE + off` for an access to the
block (R91). -/
inductive HostStmt where
  /-- `MemRead(addr, size)`. -/
  | read (addr : Nat) (size : Nat)
  /-- `MemWrite(addr, size, v)`; v is read only when size is 4, since every other size is refused (R53). -/
  | write (addr : Nat) (size : Nat) (v : Word)
  /-- `WAIT`: read STATUS until it shows BUSY = 0 (R91). -/
  | wait
deriving DecidableEq, Repr

/-- Which of the three agents of R13 moves. -/
inductive Turn where
  | host
  | engine
  | reset
deriving DecidableEq, Repr

/-- A buffer of at most 256 entries: the written entries, each with its index, indices strictly rising. An entry that
is not listed is unwritten (R32). -/
abbrev Buffer (α : Type) := List (Nat × α)

/-- What an entry that is not listed holds: nothing has written it (R32), and a read of it is a fault. -/
def Buffer.unlisted {α : Type} : Option α := none

/-- The canonical form: indices strictly rising and below the depth. -/
abbrev Buffer.wf {α : Type} (depth : Nat) (b : Buffer α) : Prop :=
  b.Pairwise (fun p q => p.1 < q.1) ∧ ∀ p ∈ b, p.1 < depth

/-- The two operand buffers, all the memory of the block (R30, R31, R51). -/
structure Memory where
  /-- COEF[0..255] (R30): index and coefficient (`Host.Cell`s). -/
  coef : Buffer Byte
  /-- POINT[0..255] (R31): index and (PX, PY), written together. -/
  point : Buffer (Byte × Byte)
deriving DecidableEq, Repr

/-- Both buffers are in canonical form. -/
abbrev Memory.wf (m : Memory) : Prop :=
  Buffer.wf Config.coefDepth m.coef ∧ Buffer.wf Config.pointDepth m.point

/-- The state. The first six fields are the block's (R39); the other four are the host's side of the port and the
schedule (notes/assumptions/1.md, 2.md, 3.md). -/
structure State where
  /-- PEND (R33): the issued command word that has not completed. STATUS.BUSY is 1 exactly when it holds a word. -/
  pend : Option Word
  /-- STATUS.DONE (R24). -/
  done : Bool
  /-- STATUS.ERR (R24). -/
  err : Bool
  /-- STATUS.ERRCODE (R24). -/
  errcode : BitVec 4
  /-- RESULT.RVAL (R26). -/
  rval : Byte
  /-- COEF and POINT (R30, R31). -/
  mem : Memory
  /-- The statements the host has still to perform, in program order (R13, R63). The model's own field. -/
  host : List HostStmt
  /-- Who moves next, and after that (R63: the interleaving is free). The model's own field: a claim holds for every
  value of it. -/
  turns : List Turn
  /-- The block's response to the host's last access, none where the block has given none: no access has been made, or
  the last one did not reach the block (notes/assumptions/17.md). The model's own field. -/
  resp : Option BusResp
  /-- The fault mark of R39, R58: the host program has received BUS_ERROR. -/
  faulted : Bool
deriving DecidableEq, Repr

/-- Why a step stops. -/
inductive Fault where
  /-- COEF[i] is read, by EVAL or over the bus, and nothing has written it since reset. The spec requires the fault
  (R32, R71). Safe: the hardware goes on with an unspecified byte. -/
  | unwrittenCoef (i : Nat)
  /-- POINT[i] is read, by INTERP or over the bus, and nothing has written it since reset (R32, R71). Safe. -/
  | unwrittenPoint (i : Nat)
deriving DecidableEq, Repr

/-- Why the model has no meaning for an instruction. -/
inductive Refusal where
  /-- The instruction has no meaning in exec yet; exec's arm raises it. Safe. No arm does so. -/
  | notModelled (mnemonic : String)
deriving DecidableEq, Repr

/-- The state right after reset (R38, R231): the block idle, STATUS and RESULT 0, every buffer entry unwritten. The
host's side is empty: no program, no schedule, no response, no fault (notes/assumptions/1.md, 2.md). -/
def State.reset : State where
  pend := none
  done := false
  err := false
  errcode := 0
  rval := 0
  mem := { coef := [], point := [] }
  host := []
  turns := []
  resp := none
  faulted := false

end Sys2Proof.Machine
end

