-- ==== Sys2Proof/Machine/Flags.lean ====
section
/-! DEFINITION. STATUS and RESULT as the words a host reads (10_state.md R22, R24, R26), and the numbers of the command
error codes (60_exceptions.md R200). The block has no other flags (R34). -/

namespace Sys2Proof.Machine

/-- The value that STATUS.ERRCODE takes (R200). -/
def ErrCode.code : ErrCode → BitVec 4
  | .divByZero => 1
  | .duplicateCoordinate => 2
  | .logOfZero => 3
  | .expOutOfRange => 4
  | .illegalCommand => 5

/-- STATUS.BUSY (R24, R33): a command is pending. -/
def State.busy (s : State) : Bool := s.pend.isSome

/-- The STATUS word (R24): ERRCODE at [11:8], ERR at [2], DONE at [1], BUSY at [0], every other bit 0. -/
def State.statusWord (s : State) : Word :=
  (0 : BitVec 20) ++ s.errcode ++ (0 : BitVec 5) ++ BitVec.ofBool s.err ++ BitVec.ofBool s.done ++ BitVec.ofBool s.busy

/-- The RESULT word (R26): RVAL at [7:0], bits [31:8] read 0. -/
def State.resultWord (s : State) : Word := s.rval.setWidth 32

end Sys2Proof.Machine
end

