-- ==== Sys2Proof/Machine/Field.lean ====
section
/-! DEFINITION. The pure field functions (40_field_arithmetic.md R100 to R111) and the two polynomial functions
(41_polynomial.md R141, R144 to R146). -/

namespace Sys2Proof.Machine

/-- One shift-and-reduce step of R100: `(a << 1)[7:0]`, and ⊕ 0x1B where the shifted-out bit was 1. 0x1B is FIELD_POLY
with its x⁸ term already shifted out. -/
def xtime (a : Byte) : Byte :=
  if a.getLsbD 7 then (a <<< 1) ^^^ Config.fieldPoly.setWidth 8 else a <<< 1

/-- One pass k of the loop of R100 over (r, a). -/
def pmulStep (b : Byte) (p : Byte × Byte) (k : Nat) : Byte × Byte :=
  (if b.getLsbD k then p.1 ^^^ p.2 else p.1, xtime p.2)

/-- `pmul(a, b)`: the product as polynomials over GF(2) modulo FIELD_POLY (R100). No command computes it; it defines
the tables. -/
def pmul (a b : Byte) : Byte := ((List.range 8).foldl (pmulStep b) (0, a)).1

/-- The successive powers of g under field multiplication: the walk of R101 for g = GENERATOR. -/
def powerWalk (g : Byte) : Nat → Byte
  | 0 => 0x01
  | i + 1 => pmul (powerWalk g i) g

/-- `gadd(a, b) = a ⊕ b` (R109). `gsub` is the same function (R110). -/
def gadd (a b : Byte) : Byte := a ^^^ b

/-- `EXP[n mod 255]`, the table read of R106 and R111. n is computed in unbounded integers (R9, R118). -/
def expMod (n : Nat) : Byte := expRom ⟨n % 255, Nat.mod_lt n (by decide)⟩

/-- `gmul(a, b)` (R106). -/
def gmul (a b : Byte) : Byte :=
  if a = 0 ∨ b = 0 then 0x00 else expMod ((logRom a).toNat + (logRom b).toNat)

/-- `gdiv(a, b)` (R111): the divisor is tested first. The index `LOG[a] − LOG[b] + 255` is written so that the
subtraction is never below 0. -/
def gdiv (a b : Byte) : Except ErrCode Byte :=
  if b = 0 then .error .divByZero
  else if a = 0 then .ok 0x00
  else .ok (expMod ((logRom a).toNat + 255 - (logRom b).toNat))

/-- `PolyEval(c[0..d], x)` by Horner's method from the highest coefficient down (R141); the list is c[0], …, c[d]. A
polynomial has at least one coefficient (R140), so the empty list never reaches it. -/
def polyEval : List Byte → Byte → Byte
  | [], _ => 0x00
  | [c], _ => c
  | c :: c' :: cs, x => gadd (gmul (polyEval (c' :: cs) x) x) c

/-- Two of the x-coordinates are equal (R145). -/
def hasDuplicate : List Byte → Bool
  | [] => false
  | x :: xs => xs.contains x || hasDuplicate xs

/-- The inner loop of R146 over the x_j with j ≠ i: `L <- gmul(L, gdiv(x_j, x_j ⊕ x_i))`. -/
def basisLoop (xi : Byte) (l : Byte) : List Byte → Except ErrCode Byte
  | [] => .ok l
  | xj :: r =>
    match gdiv xj (gadd xj xi) with
    | .ok q => basisLoop xi (gmul l q) r
    | .error c => .error c

/-- The outer loop of R146 from point i on: `s <- s ⊕ gmul(y_i, L)`. xs holds every x-coordinate. -/
def lagrangeLoop (xs : List Byte) (acc : Byte) (i : Nat) : List (Byte × Byte) → Except ErrCode Byte
  | [] => .ok acc
  | (xi, yi) :: r =>
    match basisLoop xi 0x01 (xs.eraseIdx i) with
    | .ok l => lagrangeLoop xs (gadd acc (gmul yi l)) (i + 1) r
    | .error c => .error c

/-- `Lagrange0(P)` (R146): the duplicate check comes before any product (R145). -/
def lagrange0 (p : List (Byte × Byte)) : Except ErrCode Byte :=
  if hasDuplicate (p.map Prod.fst) then .error .duplicateCoordinate
  else lagrangeLoop (p.map Prod.fst) 0x00 0 p

end Sys2Proof.Machine
end

