-- ==== Sys2Proof/Machine/Ops.lean ====
section
/-! DEFINITION. The operations on the buffers and on the registers: reading and writing an entry (10_state.md R30 to
R32), issue and completion (R35, R36), the error entry (60_exceptions.md R203) and the reset event (R231). The block
has no return from an error (R205): the next issue clears STATUS. -/

namespace Sys2Proof.Machine

/-- The content of entry i, none while it is unwritten (R32). -/
def Buffer.read {α : Type} : Buffer α → Nat → Option α
  | [], _ => Buffer.unlisted
  | (k, v) :: r, i => if k = i then some v else Buffer.read r i

/-- Entry i becomes written and holds v (R32, R57). Keeps the indices strictly rising. -/
def Buffer.write {α : Type} : Buffer α → Nat → α → Buffer α
  | [], i, v => [(i, v)]
  | (k, u) :: r, i, v =>
    if i < k then (i, v) :: (k, u) :: r
    else if i = k then (i, v) :: r
    else (k, u) :: Buffer.write r i v

/-- `COEF[i] <- c`. -/
def State.setCoef (i : Nat) (c : Byte) (s : State) : State :=
  { s with mem := { s.mem with coef := s.mem.coef.write i c } }

/-- `PX[i] <- x` and `PY[i] <- y`, together (R31, R62). -/
def State.setPoint (i : Nat) (x y : Byte) (s : State) : State :=
  { s with mem := { s.mem with point := s.mem.point.write i (x, y) } }

/-- Issue of the command word w (R35). -/
def State.issue (w : Word) (s : State) : State :=
  { s with pend := some w, done := false, err := false, errcode := 0 }

/-- A successful completion with result r (R36, branch Ok). -/
def State.completeOk (r : Byte) (s : State) : State :=
  { s with pend := none, done := true, err := false, errcode := 0, rval := r }

/-- The error entry (R36, branch Err; R203): `raise CmdError(c)`. RESULT and the buffers keep their contents. -/
def State.completeErr (c : ErrCode) (s : State) : State :=
  { s with pend := none, done := true, err := true, errcode := c.code }

/-- Completion with what Execute returned (R36). -/
def finish (r : Except ErrCode Byte) (s : State) : Host.Outcome State Fault Refusal :=
  match r with
  | .ok v => .next (s.completeOk v)
  | .error c => .next (s.completeErr c)

/-- The reset event (R231): the block takes its reset state in one step, and a pending command is abandoned. The host,
its fault mark and the schedule are not the block's state (notes/assumptions/7.md). -/
def State.resetEvent (s : State) : State :=
  { State.reset with host := s.host, turns := s.turns, resp := s.resp, faulted := s.faulted }

/-- The host receives the response r to its first statement and goes on to the next; BUS_ERROR sets the fault mark
(R58). -/
def State.respond (r : BusResp) (s : State) : State :=
  { s with host := s.host.tail, resp := some r, faulted := s.faulted || decide (r = .busError) }

/-- Bits `[8·j+7 : 8·j]` of a word: the byte lane of offset 4·k + j (R52). -/
def byteLane (w : Word) (j : Nat) : Byte := w.extractLsb' (8 * j) 8

end Sys2Proof.Machine
end

