-- ==== Sys2Proof/Machine/Operands.lean ====
section
/-! DEFINITION. The operands that a command takes from the buffers (30_encoding.md R83): the coefficients COEF[0..d] of
EVAL (R140) and the points 0..m−1 of INTERP (R147). Operands in the command word need no operation: the decoder puts
them into the command. -/

namespace Sys2Proof.Machine

/-- Entries i, i+1, …, i+n−1 of a buffer, in index order. An unwritten entry among them is a fault (R32); the lowest
such entry is the one named. Entries outside the range are not read (R30, R31). -/
def entriesFrom {α : Type} (b : Buffer α) (unwritten : Nat → Fault) (i : Nat) : Nat → Except Fault (List α)
  | 0 => .ok []
  | n + 1 =>
    match b.read i with
    | none => .error (unwritten i)
    | some v =>
      match entriesFrom b unwritten (i + 1) n with
      | .ok vs => .ok (v :: vs)
      | .error f => .error f

/-- `COEF[0..d]`: d + 1 coefficients, the constant term first (R140). -/
def coefOperand (m : Memory) (d : Nat) : Except Fault (List Byte) :=
  entriesFrom m.coef .unwrittenCoef 0 (d + 1)

/-- `[(PX[i], PY[i]) for i in 0..m-1]` (R147). -/
def pointOperand (m : Memory) (count : Nat) : Except Fault (List (Byte × Byte)) :=
  entriesFrom m.point .unwrittenPoint 0 count

end Sys2Proof.Machine
end

