-- ==== Sys2Proof/Machine/FieldCommands.lean ====
section
/-! DEFINITION. The meanings of ADD, MUL, DIV, LOG and EXP (40_field_arithmetic.md R113 to R117): each is the completion
step (10_state.md R36) with what Execute returns for the command (30_encoding.md R88). -/

namespace Sys2Proof.Machine

/-- ADD (R113): total. -/
def execAdd (a b : Byte) (s : State) : Host.Outcome State Fault Refusal := finish (.ok (gadd a b)) s

/-- MUL (R114): total. -/
def execMul (a b : Byte) (s : State) : Host.Outcome State Fault Refusal := finish (.ok (gmul a b)) s

/-- DIV (R115): a zero divisor fails with DIV_BY_ZERO, a zero dividend or not. -/
def execDiv (a b : Byte) (s : State) : Host.Outcome State Fault Refusal := finish (gdiv a b) s

/-- LOG (R116): the logarithm of 0 does not exist and fails with LOG_OF_ZERO. -/
def execLog (a : Byte) (s : State) : Host.Outcome State Fault Refusal :=
  if a = 0 then finish (.error .logOfZero) s else finish (.ok (logRom a)) s

/-- EXP (R117): the table has no entry 255, and the index does not wrap. -/
def execExp (i : Nat) (s : State) : Host.Outcome State Fault Refusal :=
  if h : i < 255 then finish (.ok (expRom ⟨i, h⟩)) s else finish (.error .expOutOfRange) s

end Sys2Proof.Machine
end

