-- ==== Sys2Proof/Machine/PolyCommands.lean ====
section
/-! DEFINITION. The meanings of EVAL and INTERP (41_polynomial.md R143, R147): the completion step (10_state.md R36) on
operands from the buffers. A read of an unwritten entry is a fault of the model, not a command error (R32, R143). -/

namespace Sys2Proof.Machine

/-- EVAL (R143): evaluate COEF[0..d] at x. -/
def execEval (x : Byte) (d : Nat) (s : State) : Host.Outcome State Fault Refusal :=
  match coefOperand s.mem d with
  | .ok c => finish (.ok (polyEval c x)) s
  | .error f => .fault f

/-- INTERP (R147): recover the value at x = 0 from points 0..m−1. -/
def execInterp (m : Nat) (s : State) : Host.Outcome State Fault Refusal :=
  match pointOperand s.mem m with
  | .ok p => finish (lagrange0 p) s
  | .error f => .fault f

end Sys2Proof.Machine
end

