-- ==== Sys2Proof/Machine/Dispatch.lean ====
section
/-! DEFINITION. The meaning of every command (30_encoding.md R88), one arm per constructor of Instr. -/

namespace Sys2Proof.Machine

def exec (i : Instr) (s : State) : Host.Outcome State Fault Refusal :=
  match i with
  | .add a b => Sys2Proof.Machine.execAdd a b s
  | .mul a b => Sys2Proof.Machine.execMul a b s
  | .div a b => Sys2Proof.Machine.execDiv a b s
  | .log a => Sys2Proof.Machine.execLog a s
  | .exp n => Sys2Proof.Machine.execExp n s
  | .eval x d => Sys2Proof.Machine.execEval x d s
  | .interp m => Sys2Proof.Machine.execInterp m s

end Sys2Proof.Machine
end

