-- ==== Sys2Proof/Machine/Engine.lean ====
section
/-! DEFINITION. The engine (00_scope.md R13): its one step, the completion of the pending command (10_state.md R36).
The command word is decoded here, at completion, from PEND (R23, R69). -/

namespace Sys2Proof.Machine

/-- Completion of the command word w. An illegal word completes with ILLEGAL_COMMAND (R84 to R87). -/
def execWord (w : Word) (s : State) : Host.Outcome State Fault Refusal :=
  match decode w with
  | .ok i => exec i s
  | .error _ => finish (.error .illegalCommand) s

/-- The engine's step: enabled exactly when a command is pending (R36); otherwise the block is idle (R215). -/
def engineStep (s : State) : Host.Outcome State Fault Refusal :=
  match s.pend with
  | some w => execWord w s
  | none => .next s

end Sys2Proof.Machine
end

