-- ==== Sys2Proof/Machine/HostPort.lean ====
section
/-! DEFINITION. The bus port (20_memory.md R50 to R62, 60_exceptions.md R207) and the host that drives it one access at
a time, in program order (00_scope.md R13, R63). -/

namespace Sys2Proof.Machine

/-- What stands at an offset (R51). -/
inductive Target where
  | cmd
  | status
  | result
  | coef (i : Nat)
  | point (i : Nat)
  | reserved
deriving DecidableEq, Repr

/-- The address map (R51), for an aligned offset: entry i of COEF is at 0x400 + 4·i, of POINT at 0x800 + 4·i (R57). -/
def target (off : Offset) : Target :=
  if off.toNat = 0x000 then .cmd
  else if off.toNat = 0x004 then .status
  else if off.toNat = 0x008 then .result
  else if off.toNat < 0x400 then .reserved
  else if off.toNat < 0x800 then .coef ((off.toNat - 0x400) / 4)
  else if off.toNat < 0xC00 then .point ((off.toNat - 0x800) / 4)
  else .reserved

/-- The access is 4 bytes wide (R53) and aligned (R54). -/
def wordAccess (off : Offset) (size : Nat) : Bool := decide (size = 4) && decide (off.toNat % 4 = 0)

/-- The COEF entry as a bus word, `zext_32(COEF[i])` (R57). -/
def coefWord (c : Byte) : Word := c.setWidth 32

/-- The POINT entry as a bus word, `zext_32({PX[i], PY[i]})` (R57). -/
def pointWord (p : Byte × Byte) : Word := (p.1 ++ p.2).setWidth 32

/-- The response to `MemRead(off, size)` (R53 to R57, R60): reads are allowed at any time, busy or not, and have no side
effect. A read of an unwritten entry is a fault (R32, R71). -/
def busRead (off : Offset) (size : Nat) (s : State) : Except Fault BusResp :=
  if wordAccess off size then
    match target off with
    | .cmd => .ok .busError
    | .status => .ok (.readOkay s.statusWord)
    | .result => .ok (.readOkay s.resultWord)
    | .coef i =>
      match s.mem.coef.read i with
      | some c => .ok (.readOkay (coefWord c))
      | none => .error (.unwrittenCoef i)
    | .point i =>
      match s.mem.point.read i with
      | some p => .ok (.readOkay (pointWord p))
      | none => .error (.unwrittenPoint i)
    | .reserved => .ok .busError
  else .ok .busError

/-- The block after `MemWrite(off, size, v)`, none where the response is BUS_ERROR (R53 to R59, R207). While a command
is pending, CMD and both buffers are locked (R59). -/
def busWrite (off : Offset) (size : Nat) (v : Word) (s : State) : Option State :=
  if wordAccess off size then
    match target off with
    | .cmd => if s.busy then none else some (s.issue v)
    | .status => none
    | .result => none
    | .coef i => if s.busy then none else some (s.setCoef i (byteLane v 0))
    | .point i => if s.busy then none else some (s.setPoint i (byteLane v 1) (byteLane v 0))
    | .reserved => none
  else none

/-- The byte a host sees at byte offset a, by the lanes of R52: none where the aligned word there cannot be read. -/
def windowByte (a : Nat) (s : State) : Option Byte :=
  match busRead (BitVec.ofNat 12 (a / 4 * 4)) 4 s with
  | .ok (.readOkay w) => some (byteLane w (a % 4))
  | .ok .writeOkay => none
  | .ok .busError => none
  | .error _ => none

/-- The host's address of an offset: `GF_BASE + off` (R91). -/
def busAddress (off : Offset) : Nat := Config.gfBase + off.toNat

/-- The offset at which a host address reaches the block, none where the address lies outside the window (R50). For a
base that is a multiple of 4096 it is `addr[11:0]`. -/
def windowOffset (addr : Nat) : Option Offset :=
  if Config.gfBase ≤ addr ∧ addr < Config.gfBase + Config.windowBytes then some (BitVec.ofNat 12 (addr - Config.gfBase))
  else none

/-- The host reads at an offset of the window. -/
def hostRead (off : Offset) (size : Nat) (s : State) : Host.Outcome State Fault Refusal :=
  match busRead off size s with
  | .ok r => .next (s.respond r)
  | .error f => .fault f

/-- The host writes at an offset of the window. -/
def hostWrite (off : Offset) (size : Nat) (v : Word) (s : State) : Host.Outcome State Fault Refusal :=
  match busWrite off size v s with
  | some t => .next (t.respond .writeOkay)
  | none => .next (s.respond .busError)

/-- The host's access outside the window: it does not reach the block (R50), which neither changes nor answers
(notes/assumptions/17.md). -/
def State.passBy (s : State) : State := { s with host := s.host.tail, resp := none }

/-- The host performs the statement st, the first of its program. WAIT reads STATUS and stays until BUSY is 0 (R91). -/
def hostDo (st : HostStmt) (s : State) : Host.Outcome State Fault Refusal :=
  match st with
  | .read addr size =>
    match windowOffset addr with
    | some off => hostRead off size s
    | none => .next s.passBy
  | .write addr size v =>
    match windowOffset addr with
    | some off => hostWrite off size v s
    | none => .next s.passBy
  | .wait =>
    if s.busy then .next { s with resp := some (.readOkay s.statusWord) }
    else .next (s.respond (.readOkay s.statusWord))

/-- The host's step. A program that has received BUS_ERROR is not continued (R58, notes/assumptions/3.md). -/
def hostStep (s : State) : Host.Outcome State Fault Refusal :=
  if s.faulted then .next s
  else
    match s.host with
    | [] => .next s
    | st :: _ => hostDo st s

end Sys2Proof.Machine
end

