-- ==== Sys2Proof/Machine/Step.lean ====
section
/-! DEFINITION. One step of the machine: the agent whose turn it is moves (00_scope.md R13, 20_memory.md R63). -/

namespace Sys2Proof.Machine

/-- The step. The schedule `turns` names the agent that moves. Where it names none any more, the engine completes a
pending command, and otherwise the host goes on: a pending command completes eventually (R243), after any finite number
of host accesses (R242). -/
def step (s : State) : Host.Outcome State Fault Refusal :=
  match s.turns with
  | .engine :: ts => engineStep { s with turns := ts }
  | .host :: ts => hostStep { s with turns := ts }
  | .reset :: ts => .next (State.resetEvent { s with turns := ts })
  | [] => if s.busy then engineStep s else hostStep s

/-- s with the command word w pending, as a host's write of w to CMD leaves it (R35), and the engine's turn next, so that
the very next step completes it. The machine fetches nothing (R21, R69): this stands for the host's write
(notes/assumptions/10.md). -/
def State.withFetchWord (s : State) (nbits w : Nat) : State :=
  { s.issue (BitVec.ofNat 32 (w % 2 ^ nbits)) with turns := .engine :: s.turns }

end Sys2Proof.Machine
end

