-- ==== Sys2Proof/Machine/Script.lean ====
section
/-! DEFINITION. The host-script statements of 30_encoding.md R89 to R91 as accesses to the port. -/

namespace Sys2Proof.Machine

/-- `WR off, v` (R91): `MemWrite(GF_BASE + off, 4, v)`. DESIGN CHOICE (notes/assumptions/18.md): off is a number of any
size, the sum does not wrap, and an off above 0xFFF lies outside the window. -/
def HostStmt.wr (off : Nat) (v : Word) : HostStmt := .write (Config.gfBase + off) 4 v

/-- `RD off` (R91): `MemRead(GF_BASE + off, 4)`; the value read is in the response. For an off above 0xFFF, see
`HostStmt.wr`. -/
def HostStmt.rd (off : Nat) : HostStmt := .read (Config.gfBase + off) 4

/-- `SETC i, v` (R91): `WR 0x400 + 4·i, v`. DESIGN CHOICE (notes/assumptions/18.md): above the entries 0..255 of R57 it is
still that WR, to a POINT entry for i in 256..511, reserved for 512..767 and outside the window from 768 on. -/
def HostStmt.setc (i : Nat) (v : Byte) : HostStmt := .wr (0x400 + 4 * i) (v.setWidth 32)

/-- `SETP i, x, y` (R91): `WR 0x800 + 4·i, (x << 8) | y`. DESIGN CHOICE (notes/assumptions/18.md): above the entries 0..255
of R57 it is still that WR, reserved for i in 256..511 and outside the window from 512 on. -/
def HostStmt.setp (i : Nat) (x y : Byte) : HostStmt :=
  .wr (0x800 + 4 * i) ((x.setWidth 32 <<< 8) ||| y.setWidth 32)

/-- `ISSUE w` (R90): the raw word w to CMD. -/
def HostStmt.issue (w : Word) : HostStmt := .wr 0x000 w

/-- A command line stands for `WR 0x000, <word>` (R89). DESIGN CHOICE (notes/assumptions/11.md): for a term that assemble
refuses, to which R89 gives no word, it writes the word of `encode`, whose fields keep the low 8 bits of an operand. -/
def HostStmt.command (i : Instr) : HostStmt := .issue (encode i)

end Sys2Proof.Machine
end

