-- ==== Sys2Proof/Machine/Facade.lean ====
section
/-! DEFINITION. The host reference procedures split and combine (42_host_procedures.md R171 to R178). They are not
hardware (R6, R170): no step of the machine calls them. They are here so that claims can relate the block's arithmetic
to what the host computes with it. -/

namespace Sys2Proof.Machine

/-- A share (R171): an id, valid in 1..255, and one byte per secret byte. -/
structure Share where
  id : Nat
  value : List Byte
deriving DecidableEq, Repr

/-- The facade's errors (R178). -/
inductive FacadeError where
  | invalidThreshold
  | insufficientShareCount
  | invalidShareCount
  | emptyShareSet
  | inconsistentShareLength
  | duplicateCoordinate
deriving DecidableEq, Repr

/-- The preconditions of split, in the order of R172. -/
def splitCheck (n k : Nat) : Except FacadeError Unit :=
  if k ≤ 1 then .error .invalidThreshold
  else if n < k then .error .insufficientShareCount
  else if 255 < n then .error .invalidShareCount
  else .ok ()

/-- The polynomial of secret byte number i (R173): the constant term is the byte, and the k − 1 others are draws, one
after another (R174, R180). -/
def splitPoly (k : Nat) (rng : Nat → Byte) (i : Nat) (secretByte : Byte) : List Byte :=
  secretByte :: (List.range (k - 1)).map (fun j => rng (i * (k - 1) + j))

/-- Share number x of the secret's bytes from number i on (R173): one EVAL per byte. -/
def shareBytes (k : Nat) (rng : Nat → Byte) (x : Byte) (i : Nat) : List Byte → List Byte
  | [] => []
  | b :: bs => polyEval (splitPoly k rng i b) x :: shareBytes k rng x (i + 1) bs

/-- The share with id x (R171, R173). -/
def shareOf (k : Nat) (secret : List Byte) (rng : Nat → Byte) (x : Nat) : Share where
  id := x
  value := shareBytes k rng (BitVec.ofNat 8 x) 0 secret

/-- `split(n, k, secret)` (R172 to R174). rng is the random source, a free input under no law (R180). The collection is
unordered (R174): order, the order in which it comes, is any permutation (93_implementation_defined.md I19), and a claim
ranges over all of them. -/
def split (n k : Nat) (secret : List Byte) (rng : Nat → Byte) (order : Equiv.Perm (Fin n)) :
    Except FacadeError (List Share) :=
  match splitCheck n k with
  | .error e => .error e
  | .ok () => .ok ((List.finRange n).map (fun j => shareOf k secret rng ((order j).val + 1)))

/-- The preconditions of combine, in the order of R175. -/
def combineCheck (shares : List Share) : Except FacadeError Unit :=
  match shares with
  | [] => .error .emptyShareSet
  | s :: r =>
    if r.any (fun t => decide (t.value.length ≠ s.value.length)) then .error .inconsistentShareLength
    else if (s :: r).map Share.id |>.Nodup then .ok ()
    else .error .duplicateCoordinate

/-- The point set of byte number b (R176). -/
def sharePoints (shares : List Share) (b : Nat) : List (Byte × Byte) :=
  shares.map (fun t => (BitVec.ofNat 8 t.id, t.value.getD b 0))

/-- Bytes number b, b+1, …, b+n−1 of the secret (R176): one INTERP per byte. A command error is DUPLICATE_COORDINATE,
and no partial result is returned. -/
def combineFrom (shares : List Share) (b : Nat) : Nat → Except FacadeError (List Byte)
  | 0 => .ok []
  | n + 1 =>
    match lagrange0 (sharePoints shares b) with
    | .error _ => .error .duplicateCoordinate
    | .ok r =>
      match combineFrom shares (b + 1) n with
      | .ok rs => .ok (r :: rs)
      | .error e => .error e

/-- `combine(shares)` (R175 to R177): no check against a threshold is made. -/
def combine (shares : List Share) : Except FacadeError (List Byte) :=
  match combineCheck shares with
  | .error e => .error e
  | .ok () => combineFrom shares 0 ((shares.map (fun t => t.value.length)).headD 0)

/-- The bus statements of split for one secret byte (R173): load the k coefficients, then evaluate at x = 1..n. -/
def splitScript (n : Nat) (poly : List Byte) : List HostStmt :=
  poly.zipIdx.map (fun p => HostStmt.setc p.2 p.1) ++
    (List.range n).flatMap (fun j =>
      [.command (.eval (BitVec.ofNat 8 (j + 1)) (poly.length - 1)), .wait, .rd 0x008])

/-- The bus statements of combine for one byte (R176): load the points, then interpolate. -/
def combineScript (points : List (Byte × Byte)) : List HostStmt :=
  points.zipIdx.map (fun p => HostStmt.setp p.2 p.1.1 p.1.2) ++
    [.command (.interp points.length), .wait, .rd 0x008]

end Sys2Proof.Machine
end

