-- ==== Sys2Proof/Safety.lean ====
section
/-! DEFINITION. The terms in which claims about the machine are made: its invariant, the two ways a command can end
written out as records, what the spec refuses written over offsets and word bits, and the sums and products of
41_polynomial.md R142 and R144. None of these is called by a step. -/

namespace Sys2Proof.Machine

/-- The invariants of STATUS (10_state.md R25). -/
structure State.StatusInv (s : State) : Prop where
  /-- BUSY = 1 implies DONE = 0, ERR = 0 and ERRCODE = 0. -/
  busy_clear : s.pend ≠ none → s.done = false ∧ s.err = false ∧ s.errcode = 0
  /-- ERR = 1 holds exactly when ERRCODE ≠ 0. -/
  err_iff_code : s.err = true ↔ s.errcode ≠ 0
  /-- ERR = 1 implies DONE = 1. -/
  err_done : s.err = true → s.done = true
  /-- ERRCODE is one of the codes 1 to 5, or 0. -/
  code_le : s.errcode.toNat ≤ 5

/-- What every step keeps: the STATUS invariants (R25) and the canonical form of both buffers. -/
structure State.Inv (s : State) : Prop where
  status : s.StatusInv
  memory : s.mem.wf

/-- The buffer entries that a command reads have been written (70_reset_and_hazards.md R234). -/
def State.Ready (s : State) : Instr → Prop
  | .add _ _ => True
  | .mul _ _ => True
  | .div _ _ => True
  | .log _ => True
  | .exp _ => True
  | .eval _ d => ∀ i, i ≤ d → s.mem.coef.read i ≠ none
  | .interp m => ∀ i, i < m → s.mem.point.read i ≠ none

/-- s after a command has completed with the byte r (R36): STATUS reads DONE, RESULT holds r, all else is as in s. -/
def State.afterSuccess (s : State) (r : Byte) : State :=
  { s with pend := none, done := true, err := false, errcode := 0, rval := r }

/-- s after a command has failed with an error code (R36, R203): only STATUS differs. -/
def State.afterError (s : State) (code : BitVec 4) : State :=
  { s with pend := none, done := true, err := true, errcode := code }

/-- The word is illegal (30_encoding.md R84 to R86), read off its bits. -/
abbrev IllegalWord (w : Word) : Prop :=
  w.extractLsb' 16 12 ≠ 0 ∨
  (w.extractLsb' 28 4 = 0 ∨ 8 ≤ (w.extractLsb' 28 4).toNat) ∨
  ((w.extractLsb' 28 4 = 4 ∨ w.extractLsb' 28 4 = 5) ∧ w.extractLsb' 0 8 ≠ 0) ∨
  (w.extractLsb' 28 4 = 7 ∧ w.extractLsb' 8 8 ≠ 0)

/-- The error codes that a command word can end with, by its OPC field (60_exceptions.md R201). -/
def possibleCodes (opc : BitVec 4) : List (BitVec 4) :=
  match opc.toNat with
  | 3 => [5, 1]
  | 4 => [5, 3]
  | 5 => [5, 4]
  | 7 => [5, 2]
  | _ => [5]

/-- The offset is reserved (20_memory.md R51, R55): 0x00C to 0x3FF, or 0xC00 to 0xFFF. -/
abbrev ReservedOffset (off : Offset) : Prop :=
  (0x00C ≤ off.toNat ∧ off.toNat ≤ 0x3FF) ∨ 0xC00 ≤ off.toNat

/-- A read that returns BUS_ERROR (60_exceptions.md R207, cases 1 to 4). -/
abbrev ReadRefused (off : Offset) (size : Nat) : Prop :=
  size ≠ 4 ∨ off.toNat % 4 ≠ 0 ∨ ReservedOffset off ∨ off.toNat = 0x000

/-- A write that returns BUS_ERROR (60_exceptions.md R207, cases 1 to 5). -/
abbrev WriteRefused (s : State) (off : Offset) (size : Nat) : Prop :=
  size ≠ 4 ∨ off.toNat % 4 ≠ 0 ∨ ReservedOffset off ∨ off.toNat = 0x004 ∨ off.toNat = 0x008 ∨
  (s.pend ≠ none ∧ (off.toNat = 0x000 ∨ (0x400 ≤ off.toNat ∧ off.toNat ≤ 0xBFF)))

/-- The ⊕-sum of f 0, …, f (n − 1). -/
def xorSum (f : Nat → Byte) : Nat → Byte
  | 0 => 0
  | n + 1 => xorSum f n ^^^ f n

/-- The product of f 0, …, f (n − 1); the empty product is 0x01 (R144). -/
def gprod (f : Nat → Byte) : Nat → Byte
  | 0 => 0x01
  | n + 1 => gmul (gprod f n) (f n)

/-- `x^k` as R142 defines it. -/
def gpow (x : Byte) : Nat → Byte
  | 0 => 0x01
  | k + 1 => gmul (gpow x k) x

/-- The quotient a / b of R144, for b ≠ 0. -/
def gquot (a b : Byte) : Byte :=
  match gdiv a b with
  | .ok q => q
  | .error _ => 0

/-- `Lᵢ(0) = Πⱼ≠ᵢ xⱼ / (xⱼ ⊕ xᵢ)` over the points 0..m−1 (R144). -/
def basisAt (x : Nat → Byte) (m i : Nat) : Byte :=
  gprod (fun j => if j = i then 0x01 else gquot (x j) (x j ^^^ x i)) m

end Sys2Proof.Machine
end

