-- ==== Sys2Proof/Certificates/Slice0/Obligations.lean ====
section
/-! DEFINITION. The statements for the provers, each with the rules of spec/ that it formalises. A field of State that is
the model's own (host, turns, resp) is universally quantified in every one of them. -/

open Sys2Proof
open Sys2Proof.Machine

/-! ## Encoding -/

/-- R81 to R83, R89: reading what the encoder writes gives the command back, every operand at every value its field
encodes. -/
def Obligations.DecodeOfEncode : Prop :=
  ∀ i : Instr, i.wellFormed = true → decode (encode i) = .ok i

/-- R80, R81, R83: a word that the decoder accepts is the encoding of the well-formed command it reads, bit for bit. -/
def Obligations.EncodeOfDecode : Prop :=
  ∀ (w : Word) (i : Instr), decode w = .ok i → i.wellFormed = true ∧ encode i = w

/-- R84 to R86 in the order of R202: which words are illegal, and for which reason. -/
def Obligations.RejectsByPriority : Prop :=
  ∀ w : Word,
    (decode w = .error .reservedField ↔ w.extractLsb' 16 12 ≠ 0) ∧
    (decode w = .error .reservedOpcode ↔
      w.extractLsb' 16 12 = 0 ∧ (w.extractLsb' 28 4 = 0 ∨ 8 ≤ (w.extractLsb' 28 4).toNat)) ∧
    (decode w = .error .unusedField ↔
      w.extractLsb' 16 12 = 0 ∧
        (((w.extractLsb' 28 4 = 4 ∨ w.extractLsb' 28 4 = 5) ∧ w.extractLsb' 0 8 ≠ 0) ∨
          (w.extractLsb' 28 4 = 7 ∧ w.extractLsb' 8 8 ≠ 0)))

/-- The seven example words of R89. -/
def Obligations.ExampleWordsDecode : Prop :=
  decode 0x20005783 = .ok (.mul 0x57 0x83) ∧ decode 0x3000C183 = .ok (.div 0xC1 0x83) ∧
  decode 0x40005300 = .ok (.log 0x53) ∧ decode 0x50001900 = .ok (.exp 0x19) ∧
  decode 0x60000302 = .ok (.eval 3 2) ∧ decode 0x70000002 = .ok (.interp 3) ∧
  decode 0x10000FF0 = .ok (.add 0x0F 0xF0)

/-- R87: each of the 2³² command words is one of the seven commands with legal fields, and the engine's step executes
that command, or it completes with ILLEGAL_COMMAND. -/
def Obligations.EveryWordIsCommandOrIllegal : Prop :=
  ∀ (s : State) (w : Word) (ts : List Turn), s.pend = some w → s.turns = .engine :: ts →
    (∃ i : Instr, i.wellFormed = true ∧ encode i = w ∧ step s = exec i { s with turns := ts }) ∨
    ((∀ i : Instr, i.wellFormed = true → encode i ≠ w) ∧
      step s = .next (State.afterError { s with turns := ts } 5))

/-- R84 to R86: an illegal word, by its bits, completes with code 5 and leaves RESULT and the buffers as they were. -/
def Obligations.IllegalWordsFail : Prop :=
  ∀ (s : State) (w : Word) (ts : List Turn), s.pend = some w → s.turns = .engine :: ts → IllegalWord w →
    step s = .next (State.afterError { s with turns := ts } 5)

/-! ## The step -/

/-- R36: where a command is pending and the engine moves (by the schedule, or because the schedule names nobody any
more: log entry 1), the step is the execution of the decoded command. -/
def Obligations.StepRunsDecodedCommand : Prop :=
  ∀ (s : State) (w : Word) (i : Instr), s.pend = some w → decode w = .ok i →
    (∀ ts, s.turns = .engine :: ts → step s = exec i { s with turns := ts }) ∧
    (s.turns = [] → step s = exec i s)

/-- R32, R87: no step is refused, and a step faults only where it reads a buffer entry that is unwritten. -/
def Obligations.StepStopsOnlyOnUnwritten : Prop :=
  ∀ s : State, (∀ r, step s ≠ .refused r) ∧
    ∀ f, step s = .fault f →
      (∃ i, f = .unwrittenCoef i ∧ i < 256 ∧ s.mem.coef.read i = none) ∨
      (∃ i, f = .unwrittenPoint i ∧ i < 256 ∧ s.mem.point.read i = none)

/-! ## Field arithmetic -/

/-- R107, which the spec marks as derived. -/
def Obligations.TableProductIsFieldProduct : Prop :=
  ∀ a b : Byte, gmul a b = pmul a b

/-- R101: EXP is the walk of the powers of GENERATOR = 0x03, and one step further gives EXP[0] again. -/
def Obligations.ExpTableIsTheWalk : Prop :=
  (∀ i : Fin 255, expRom i = powerWalk 0x03 i.val) ∧ powerWalk 0x03 255 = expRom 0

/-- R103, which the spec marks as derived: EXP is a bijection onto the non-zero bytes, LOG inverts it both ways, 0x03
has order 255 and 0x02 has order 51. -/
def Obligations.TablesInvertEachOther : Prop :=
  (∀ i : Fin 255, expRom i ≠ 0) ∧ (∀ i j : Fin 255, expRom i = expRom j → i = j) ∧
  (∀ a : Byte, a ≠ 0 → ∃ i : Fin 255, expRom i = a) ∧
  (∀ i : Fin 255, (logRom (expRom i)).toNat = i.val) ∧
  (∀ a : Byte, a ≠ 0 → ∃ h : (logRom a).toNat < 255, expRom ⟨(logRom a).toNat, h⟩ = a) ∧
  powerWalk 0x03 255 = 0x01 ∧ (∀ n, 0 < n → n < 255 → powerWalk 0x03 n ≠ 0x01) ∧
  powerWalk 0x02 51 = 0x01 ∧ (∀ n, 0 < n → n < 51 → powerWalk 0x02 n ≠ 0x01)

/-- R119, which the spec marks as derived: the field laws of gadd and gmul. -/
def Obligations.FieldLaws : Prop :=
  (∀ a b, gadd a b = gadd b a) ∧ (∀ a b c, gadd (gadd a b) c = gadd a (gadd b c)) ∧
  (∀ a b, gmul a b = gmul b a) ∧ (∀ a b c, gmul (gmul a b) c = gmul a (gmul b c)) ∧
  (∀ a b c, gmul a (gadd b c) = gadd (gmul a b) (gmul a c)) ∧
  (∀ a, gadd a 0x00 = a) ∧ (∀ a, gmul a 0x01 = a) ∧ (∀ a, gmul a 0x00 = 0x00) ∧
  (∀ a, a ≠ 0 → ∃ v, gdiv 0x01 a = .ok v ∧ gmul a v = 0x01)

/-- R112, which the spec marks as derived: the division laws. -/
def Obligations.DivisionLaws : Prop :=
  (∀ a b : Byte, b ≠ 0 → ∃ q, gdiv a b = .ok q ∧ gmul q b = a) ∧
  (∀ a : Byte, a ≠ 0 → gdiv a a = .ok 0x01) ∧
  (∀ b : Byte, b ≠ 0 → ∃ v, gdiv 0x01 b = .ok v ∧ gmul b v = 0x01) ∧
  gdiv 0x00 0x00 = .error .divByZero

/-- R108, which the spec marks as derived: the tables of any generator of order 255 multiply and divide alike. The
exponents of a product add modulo 255, those of a quotient subtract. -/
def Obligations.GeneratorDoesNotMatter : Prop :=
  ∀ g : Byte, powerWalk g 255 = 0x01 → (∀ n, 0 < n → n < 255 → powerWalk g n ≠ 0x01) →
    (∀ a : Byte, a ≠ 0 → ∃ i, i < 255 ∧ powerWalk g i = a) ∧
    ∀ i j, i < 255 → j < 255 →
      gmul (powerWalk g i) (powerWalk g j) = powerWalk g ((i + j) % 255) ∧
      gdiv (powerWalk g i) (powerWalk g j) = .ok (powerWalk g ((i + 255 - j) % 255))

/-! ## The commands -/

/-- R113, R36: ADD completes in every state with a ⊕ b. The result state is the old one but for STATUS, RESULT and
PEND. -/
def Obligations.AddCompletes : Prop :=
  ∀ (a b : Byte) (s : State), exec (.add a b) s = .next (s.afterSuccess (a ^^^ b))

/-- R114, R107, R36: MUL completes in every state with the field product. -/
def Obligations.MulCompletes : Prop :=
  ∀ (a b : Byte) (s : State), exec (.mul a b) s = .next (s.afterSuccess (pmul a b))

/-- R115, R112, R36: DIV with a non-zero divisor completes in every state, and the result times the divisor, as a field
product, is the dividend. -/
def Obligations.DivCompletes : Prop :=
  ∀ (a b : Byte) (s : State), b ≠ 0 →
    ∃ q : Byte, pmul q b = a ∧ exec (.div a b) s = .next (s.afterSuccess q)

/-- R116, R101, R36: LOG of a non-zero byte completes in every state with the exponent, in 0..254, of the power of 0x03
that the byte is. -/
def Obligations.LogCompletes : Prop :=
  ∀ (a : Byte) (s : State), a ≠ 0 →
    ∃ l, l < 255 ∧ powerWalk 0x03 l = a ∧ exec (.log a) s = .next (s.afterSuccess (BitVec.ofNat 8 l))

/-- R117, R101, R36: EXP with an index below 255 completes in every state with that power of 0x03. -/
def Obligations.ExpCompletes : Prop :=
  ∀ (i : Nat) (s : State), i < 255 → exec (.exp i) s = .next (s.afterSuccess (powerWalk 0x03 i))

/-- R115, R116, R117, R203: the errors of DIV, LOG and EXP. `DIV 0, 0` is one of them, and `EXP 255` does not wrap. -/
def Obligations.FieldCommandErrors : Prop :=
  ∀ s : State,
    (∀ a : Byte, exec (.div a 0x00) s = .next (s.afterError 1)) ∧
    exec (.log 0x00) s = .next (s.afterError 3) ∧
    exec (.exp 255) s = .next (s.afterError 4)

/-- R143, R142, R36: EVAL of degree d with COEF[0..d] written completes with Σ COEF[i]·xⁱ. -/
def Obligations.EvalCompletes : Prop :=
  ∀ (x : Byte) (d : Nat) (c : Nat → Byte) (s : State), d ≤ 255 →
    (∀ i, i ≤ d → s.mem.coef.read i = some (c i)) →
    exec (.eval x d) s = .next (s.afterSuccess (xorSum (fun i => gmul (c i) (gpow x i)) (d + 1)))

/-- The corner cases of R143 with R142's consequences (the spec marks R142 as derived): x = 0 gives COEF[0], x = 1 the
⊕-sum of COEF[0..d], d = 0 gives COEF[0]. -/
def Obligations.EvalCornerCases : Prop :=
  ∀ (d : Nat) (c : Nat → Byte) (s : State), d ≤ 255 → (∀ i, i ≤ d → s.mem.coef.read i = some (c i)) →
    exec (.eval 0x00 d) s = .next (s.afterSuccess (c 0)) ∧
    exec (.eval 0x01 d) s = .next (s.afterSuccess (xorSum c (d + 1))) ∧
    ∀ x, exec (.eval x 0) s = .next (s.afterSuccess (c 0))

/-- R147, R146, R144, R36: INTERP over m written points with pairwise distinct x completes with Σ yᵢ·Lᵢ(0). -/
def Obligations.InterpCompletes : Prop :=
  ∀ (m : Nat) (x y : Nat → Byte) (s : State), 1 ≤ m → m ≤ 256 →
    (∀ i, i < m → s.mem.point.read i = some (x i, y i)) →
    (∀ i j, i < m → j < m → x i = x j → i = j) →
    exec (.interp m) s = .next (s.afterSuccess (xorSum (fun i => gmul (y i) (basisAt x m i)) m))

/-- R145: two equal x-coordinates among the m points, whatever their y, fail with DUPLICATE_COORDINATE, and RESULT keeps
its value. -/
def Obligations.InterpDuplicateFails : Prop :=
  ∀ (m : Nat) (x y : Nat → Byte) (s : State), m ≤ 256 →
    (∀ i, i < m → s.mem.point.read i = some (x i, y i)) →
    (∃ i j, i < m ∧ j < m ∧ i ≠ j ∧ x i = x j) →
    exec (.interp m) s = .next (s.afterError 2)

/-- The corner cases of R148, which the spec marks as derived: one point gives its y whatever its x, and a point with
x = 0 gives its y. -/
def Obligations.InterpCornerCases : Prop :=
  ∀ (m : Nat) (x y : Nat → Byte) (s : State), 1 ≤ m → m ≤ 256 →
    (∀ i, i < m → s.mem.point.read i = some (x i, y i)) →
    exec (.interp 1) s = .next (s.afterSuccess (y 0)) ∧
    ((∀ i j, i < m → j < m → x i = x j → i = j) →
      ∀ k, k < m → x k = 0x00 → exec (.interp m) s = .next (s.afterSuccess (y k)))

/-- R149, which the spec marks as derived: INTERP over m points of a polynomial p of degree at most m − 1, with
distinct x, returns p's constant term. -/
def Obligations.InterpReconstructs : Prop :=
  ∀ (m : Nat) (p : List Byte) (x : Nat → Byte) (s : State), 1 ≤ m → m ≤ 256 → p ≠ [] → p.length ≤ m →
    (∀ i j, i < m → j < m → x i = x j → i = j) →
    (∀ i, i < m → s.mem.point.read i = some (x i, polyEval p (x i))) →
    exec (.interp m) s = .next (s.afterSuccess (polyEval p 0x00))

/-- R146: the order of the points does not change what INTERP returns. -/
def Obligations.PointOrderDoesNotMatter : Prop :=
  ∀ p q : List (Byte × Byte), p.Perm q → lagrange0 p = lagrange0 q

/-- R32, R71, R143: EVAL and INTERP fault on an unwritten entry among those they read. Which of several is named is the
model's choice (log entry 4), and the statement leaves it open. -/
def Obligations.UnwrittenOperandFaults : Prop :=
  ∀ s : State,
    (∀ (x : Byte) (d : Nat), d ≤ 255 → (∃ i, i ≤ d ∧ s.mem.coef.read i = none) →
      ∃ i, i ≤ d ∧ s.mem.coef.read i = none ∧ exec (.eval x d) s = .fault (.unwrittenCoef i)) ∧
    (∀ m : Nat, 1 ≤ m → m ≤ 256 → (∃ i, i < m ∧ s.mem.point.read i = none) →
      ∃ i, i < m ∧ s.mem.point.read i = none ∧ exec (.interp m) s = .fault (.unwrittenPoint i))

/-- R234, R71: a well-formed command completes, successfully or with an error code, once the buffer entries it reads
have been written. ADD, MUL, DIV, LOG and EXP need none. -/
def Obligations.ReadyCommandsComplete : Prop :=
  ∀ (i : Instr) (s : State), i.wellFormed = true → s.Ready i →
    ∃ t, exec i s = .next t ∧ t.pend = none ∧ t.done = true

/-- R120, which the spec marks as derived: the involution properties, as commands. -/
def Obligations.InvolutionThroughCommands : Prop :=
  ∀ s : State,
    exec (.div 0x00 0x00) s = .next (s.afterError 1) ∧
    ∀ a : Byte, a ≠ 0 →
      exec (.div a a) s = .next (s.afterSuccess 0x01) ∧
      ∃ t₁ t₂ t₃, exec (.log a) s = .next t₁ ∧ exec (.exp t₁.rval.toNat) t₁ = .next t₂ ∧
        exec (.mul t₂.rval 0x01) t₂ = .next t₃ ∧ t₃.rval = a ∧ t₁.err = false ∧ t₂.err = false ∧ t₃.err = false

/-! ## What a command leaves unchanged, and errors -/

/-- R30, R31, R36, R203: the frame of all seven commands. No command stores: both buffers, and every byte that a host
reads in their two ranges, are as before, and so is the host's side. A failed command leaves RESULT as it was. -/
def Obligations.CommandFrame : Prop :=
  ∀ (i : Instr) (s t : State), exec i s = .next t →
    t.mem = s.mem ∧ (∀ a, 0x400 ≤ a → a ≤ 0xBFF → windowByte a t = windowByte a s) ∧
    t.host = s.host ∧ t.turns = s.turns ∧ t.resp = s.resp ∧ t.faulted = s.faulted ∧
    t.pend = none ∧ t.done = true ∧ (t.err = true → t.rval = s.rval ∧ t.errcode ≠ 0) ∧
    (t.err = false → t.errcode = 0)

/-- R204: after a failed command the state differs from the state before its issue only in STATUS. -/
def Obligations.ErrorsArePrecise : Prop :=
  ∀ (s t : State) (w : Word) (ts : List Turn), s.pend = none →
    step { s with pend := some w, done := false, err := false, errcode := 0, turns := .engine :: ts } = .next t →
    t.err = true →
    t = { s with done := true, err := true, errcode := t.errcode, turns := ts }

/-- R201, which the spec marks as derived: which codes a command word can end with, by its opcode. INTERP never
reports DIV_BY_ZERO. -/
def Obligations.ErrorCodesByOpcode : Prop :=
  ∀ (s t : State) (w : Word) (ts : List Turn), s.pend = some w → s.turns = .engine :: ts → step s = .next t →
    t.err = true → t.errcode ∈ possibleCodes (w.extractLsb' 28 4)

/-- R37 (which the spec marks as derived), R30, R31: what a completion computes depends only on the command word and
the buffer entries the command reads: COEF[0..B] for EVAL, POINT[0..B] for INTERP, none for the others. -/
def Obligations.ResultDependsOnOperandsOnly : Prop :=
  ∀ (s s' t : State) (w : Word) (ts ts' : List Turn), s.pend = some w → s'.pend = some w →
    s.turns = .engine :: ts → s'.turns = .engine :: ts' →
    (w.extractLsb' 28 4 = 6 → ∀ i, i ≤ (w.extractLsb' 0 8).toNat → s.mem.coef.read i = s'.mem.coef.read i) →
    (w.extractLsb' 28 4 = 7 → ∀ i, i ≤ (w.extractLsb' 0 8).toNat → s.mem.point.read i = s'.mem.point.read i) →
    step s = .next t →
    ∃ t', step s' = .next t' ∧ t'.err = t.err ∧ t'.errcode = t.errcode ∧ (t.err = false → t'.rval = t.rval)

/-! ## The port -/

/-- R24: the fields of STATUS, and its reserved bits. -/
def Obligations.StatusWordFields : Prop :=
  ∀ s : State,
    (s.statusWord.getLsbD 0 = s.pend.isSome) ∧ s.statusWord.getLsbD 1 = s.done ∧ s.statusWord.getLsbD 2 = s.err ∧
    s.statusWord.extractLsb' 3 5 = 0 ∧ s.statusWord.extractLsb' 8 4 = s.errcode ∧
    s.statusWord.extractLsb' 12 20 = 0

/-- R35: issue. A write to CMD while no command is pending stores the word in PEND and clears STATUS. While one is
pending, the write returns BUS_ERROR and changes nothing of the block. -/
def Obligations.IssueIsAtomic : Prop :=
  ∀ (s : State) (w : Word) (ts : List Turn) (rest : List HostStmt), s.faulted = false → s.turns = .host :: ts →
    s.host = .write (busAddress 0x000) 4 w :: rest →
    (s.pend = none →
      step s = .next
        { s with
          pend := some w, done := false, err := false, errcode := 0, turns := ts, host := rest, resp := some .writeOkay }) ∧
    (s.pend ≠ none →
      step s = .next { s with turns := ts, host := rest, resp := some .busError, faulted := true })

/-- R207 with R58 and R32: BUS_ERROR is the response exactly in the listed cases, and it changes no state of the block.
Any other write returns OKAY. Any other read returns OKAY with a word, but for the one that R32 makes a fault of the
model: the read of a COEF or POINT entry that is unwritten. -/
def Obligations.BusErrorExactly : Prop :=
  ∀ (s : State) (off : Offset) (size : Nat) (ts : List Turn) (rest : List HostStmt),
    s.faulted = false → s.turns = .host :: ts →
    (s.host = .read (busAddress off) size :: rest →
      (ReadRefused off size →
        step s = .next { s with turns := ts, host := rest, resp := some .busError, faulted := true }) ∧
      (¬ ReadRefused off size →
        (∃ v, step s = .next { s with turns := ts, host := rest, resp := some (.readOkay v) }) ∨
        (∃ i, i < 256 ∧ off.toNat = 0x400 + 4 * i ∧ s.mem.coef.read i = none ∧
          step s = .fault (.unwrittenCoef i)) ∨
        ∃ i, i < 256 ∧ off.toNat = 0x800 + 4 * i ∧ s.mem.point.read i = none ∧
          step s = .fault (.unwrittenPoint i))) ∧
    (∀ v, s.host = .write (busAddress off) size v :: rest →
      (WriteRefused s off size →
        step s = .next { s with turns := ts, host := rest, resp := some .busError, faulted := true }) ∧
      (¬ WriteRefused s off size →
        ∃ t, step s = .next t ∧ t.resp = some .writeOkay ∧ t.faulted = false ∧ t.host = rest ∧ t.turns = ts))

/-- R50: an access outside the 4 KiB window at GF_BASE, whatever its size, does not reach the block: every register and
both buffers stay as they are. That the host goes on and that its response, which is not the block's, reads none is the
model's choice (log entry 17). -/
def Obligations.AccessOutsideWindowPassesBy : Prop :=
  ∀ (s : State) (addr size : Nat) (ts : List Turn) (rest : List HostStmt),
    s.faulted = false → s.turns = .host :: ts → (addr < Config.gfBase ∨ Config.gfBase + 0x1000 ≤ addr) →
    (s.host = .read addr size :: rest ∨ ∃ v, s.host = .write addr size v :: rest) →
    step s = .next { s with turns := ts, host := rest, resp := none }

/-- R57, R60, R24, R26, R71: what a read returns, pending command or not. It changes nothing of the block. -/
def Obligations.ReadsReturnContents : Prop :=
  ∀ (s : State) (off : Offset) (ts : List Turn) (rest : List HostStmt),
    s.faulted = false → s.turns = .host :: ts → s.host = .read (busAddress off) 4 :: rest →
    (off.toNat = 0x004 →
      step s = .next { s with turns := ts, host := rest, resp := some (.readOkay s.statusWord) }) ∧
    (off.toNat = 0x008 →
      step s = .next { s with turns := ts, host := rest, resp := some (.readOkay (s.rval.setWidth 32)) }) ∧
    (∀ i, i < 256 → off.toNat = 0x400 + 4 * i →
      (∀ c, s.mem.coef.read i = some c →
        step s = .next { s with turns := ts, host := rest, resp := some (.readOkay (c.setWidth 32)) }) ∧
      (s.mem.coef.read i = none → step s = .fault (.unwrittenCoef i))) ∧
    (∀ i, i < 256 → off.toNat = 0x800 + 4 * i →
      (∀ x y, s.mem.point.read i = some (x, y) →
        step s = .next { s with turns := ts, host := rest, resp := some (.readOkay ((0 : BitVec 16) ++ x ++ y)) }) ∧
      (s.mem.point.read i = none → step s = .fault (.unwrittenPoint i)))

/-- R57, R31, R59: an accepted write stores its entry, ignores the upper bits, and leaves every other entry and all else
of the block as it was. -/
def Obligations.WritesStoreOneEntry : Prop :=
  ∀ (s : State) (off : Offset) (v : Word) (ts : List Turn) (rest : List HostStmt) (i : Nat),
    s.faulted = false → s.pend = none → s.turns = .host :: ts → s.host = .write (busAddress off) 4 v :: rest → i < 256 →
    (off.toNat = 0x400 + 4 * i →
      ∃ b, step s = .next { s with turns := ts, host := rest, resp := some .writeOkay, mem := { s.mem with coef := b } } ∧
        b.read i = some (v.extractLsb' 0 8) ∧ ∀ j, j ≠ i → b.read j = s.mem.coef.read j) ∧
    (off.toNat = 0x800 + 4 * i →
      ∃ b, step s = .next { s with turns := ts, host := rest, resp := some .writeOkay, mem := { s.mem with point := b } } ∧
        b.read i = some (v.extractLsb' 8 8, v.extractLsb' 0 8) ∧ ∀ j, j ≠ i → b.read j = s.mem.point.read j)

/-- R91: WAIT reads STATUS. It stays while BUSY is 1 and ends on the first word that shows BUSY = 0. -/
def Obligations.WaitPollsBusy : Prop :=
  ∀ (s : State) (ts : List Turn) (rest : List HostStmt), s.faulted = false → s.turns = .host :: ts →
    s.host = .wait :: rest →
    (s.pend ≠ none → step s = .next { s with turns := ts, resp := some (.readOkay s.statusWord) }) ∧
    (s.pend = none → step s = .next { s with turns := ts, host := rest, resp := some (.readOkay s.statusWord) })

/-! ## Reset -/

/-- R38: the state after reset. -/
def Obligations.ResetValues : Prop :=
  State.reset.pend = none ∧ State.reset.statusWord = 0 ∧ State.reset.resultWord = 0 ∧
  (∀ i, State.reset.mem.coef.read i = none) ∧ ∀ i, State.reset.mem.point.read i = none

/-- R231: the reset event, a command pending or not: the block takes its reset state in one step. That the host's
program, its fault mark and the schedule stay is the model's choice (log entry 7). -/
def Obligations.ResetEventRestoresBlock : Prop :=
  ∀ (s : State) (ts : List Turn), s.turns = .reset :: ts →
    step s = .next { State.reset with turns := ts, host := s.host, resp := s.resp, faulted := s.faulted }

/-! ## The whole machine -/

/-- The invariant holds at reset (R25, R38). -/
def Obligations.ResetMeetsInvariant : Prop := State.reset.Inv

/-- Every step keeps the invariant: the STATUS invariants of R25 and the canonical form of the buffers. -/
def Obligations.StepKeepsInvariant : Prop :=
  ∀ s t : State, s.Inv → step s = .next t → t.Inv

/-- R25, which the spec marks as derived: the STATUS invariants hold in every state that a run from reset reaches,
whatever the host does and however the agents interleave. -/
def Obligations.ReachableStatusInvariants : Prop :=
  ∀ (program : List HostStmt) (schedule : List Turn) (n : Nat) (t : State),
    Host.Core.run core n { State.reset with host := program, turns := schedule } = .next t → t.StatusInv

/-- R205, R24, R35, R36: DONE, ERR and ERRCODE change only by reset, by a completion, or by an issue, which clears
them. -/
def Obligations.StatusChangesOnlyBy : Prop :=
  ∀ s t : State, step s = .next t → (t.done, t.err, t.errcode) ≠ (s.done, s.err, s.errcode) →
    s.turns.head? = some .reset ∨ (s.pend ≠ none ∧ t.pend = none ∧ t.done = true) ∨
    (s.pend = none ∧ t.pend ≠ none ∧ t.done = false ∧ t.err = false ∧ t.errcode = 0)

/-- R26: RESULT is written only by a successful completion (and by reset). -/
def Obligations.ResultWrittenOnlyBySuccess : Prop :=
  ∀ s t : State, step s = .next t → t.rval ≠ s.rval →
    s.turns.head? = some .reset ∨
      (s.pend ≠ none ∧ t.pend = none ∧ t.done = true ∧ t.err = false ∧ s.turns.head? ≠ some .host)

/-- R30, R31, R59, R69: a buffer changes only by reset or by a 4-byte host write into the buffers' range that is made
while no command is pending. That the host is not marked faulted is the model's choice (log entry 3: a marked host
performs nothing). -/
def Obligations.BuffersChangeOnlyByHostWrite : Prop :=
  ∀ s t : State, step s = .next t → t.mem ≠ s.mem →
    s.turns.head? = some .reset ∨
      (s.pend = none ∧ s.faulted = false ∧
        ∃ off v, s.host.head? = some (.write (busAddress off) 4 v) ∧ 0x400 ≤ off.toNat ∧ off.toNat ≤ 0xBFF)

/-- R206 (which the spec marks as derived), R59, R69: while a command is pending, and no reset comes, a step leaves
PEND and both buffers as they are, or it is the completion. -/
def Obligations.PendingCommandIsStable : Prop :=
  ∀ (s t : State) (w : Word), s.pend = some w → s.turns.head? ≠ some .reset → step s = .next t →
    t.mem = s.mem ∧ (t.pend = some w ∨ (t.pend = none ∧ t.done = true))

/-- R58, decision D44: the fault mark never clears. That a program with the mark performs no further access is log
entry 3. -/
def Obligations.FaultMarkStays : Prop :=
  ∀ s t : State, s.faulted = true → step s = .next t →
    t.faulted = true ∧ t.host = s.host ∧ t.resp = s.resp ∧
      (s.turns.head? ≠ some .reset → t.mem = s.mem)

/-- R243, R242: at the latest one step after the schedule ends, a pending command has completed under a schedule without a
reset, and under any other it has completed or been abandoned, unless the run faults on an unwritten entry (R32). That the
engine moves when the schedule is empty, on which the bound rests, is the model's choice (log entry 1). -/
def Obligations.PendingCommandCompletes : Prop :=
  ∀ (s : State) (w : Word), s.pend = some w →
    (.reset ∉ s.turns →
      ∃ k, k ≤ s.turns.length + 1 ∧
        ((∃ i, s.mem.coef.read i = none ∧ Host.Core.run core k s = .fault (.unwrittenCoef i)) ∨
         (∃ i, s.mem.point.read i = none ∧ Host.Core.run core k s = .fault (.unwrittenPoint i)) ∨
         ∃ t, Host.Core.run core k s = .next t ∧ t.pend = none ∧ t.done = true)) ∧
    ∃ k, k ≤ s.turns.length + 1 ∧
      ((∃ f, Host.Core.run core k s = .fault f) ∨ ∃ t, Host.Core.run core k s = .next t ∧ t.pend = none)

/-- R63, R237, R238, R242: a host that issues a command word, waits and reads RESULT ends in the same state under every
schedule without a reset: the state that the command's completion u gives, with RESULT as the word read. A failed or
illegal command ends so too, with the same error code under every schedule and RESULT unchanged. That the engine and then
the host move once the schedule is empty is the model's choice (log entry 1). -/
def Obligations.ResultIndependentOfLatency : Prop :=
  ∀ (s u : State) (w : Word) (schedule : List Turn),
    s.pend = none → s.faulted = false → .reset ∉ schedule → execWord w s = .next u →
    u.pend = none ∧ u.done = true ∧ (u.err = true → u.rval = s.rval) ∧
    Host.Core.run core (schedule.length + 4)
        { s with
          host := [.write (busAddress 0x000) 4 w, .wait, .read (busAddress 0x008) 4], turns := schedule } =
      .next { u with host := [], turns := [], resp := some (.readOkay (u.rval.setWidth 32)) }

/-! ## The host procedures -/

/-- R172: the preconditions of split, in order. -/
def Obligations.SplitPreconditions : Prop :=
  ∀ (n k : Nat) (secret : List Byte) (rng : Nat → Byte) (order : Equiv.Perm (Fin n)),
    (k ≤ 1 → split n k secret rng order = .error .invalidThreshold) ∧
    (1 < k → n < k → split n k secret rng order = .error .insufficientShareCount) ∧
    (1 < k → k ≤ n → 255 < n → split n k secret rng order = .error .invalidShareCount) ∧
    (1 < k → k ≤ n → n ≤ 255 → ∃ shares, split n k secret rng order = .ok shares)

/-- R174: split yields n shares with ids {1, …, n}, each as long as the secret. The collection is unordered: the lists
that split can yield from the same draws are exactly the permutations of any one of them (93_implementation_defined.md
I19). -/
def Obligations.SplitYieldsShares : Prop :=
  ∀ (n k : Nat) (secret : List Byte) (rng : Nat → Byte) (order : Equiv.Perm (Fin n)) (shares : List Share),
    split n k secret rng order = .ok shares →
    (shares.map Share.id).Perm (List.range' 1 n) ∧ (∀ t ∈ shares, t.value.length = secret.length) ∧
    ∀ other : List Share,
      other.Perm shares ↔ ∃ order' : Equiv.Perm (Fin n), split n k secret rng order' = .ok other

/-- R175: the preconditions of combine, in order. -/
def Obligations.CombinePreconditions : Prop :=
  combine [] = .error .emptyShareSet ∧
  ∀ shares : List Share,
    ((∃ t ∈ shares, ∃ u ∈ shares, t.value.length ≠ u.value.length) →
      combine shares = .error .inconsistentShareLength) ∧
    (shares ≠ [] → (∀ t ∈ shares, ∀ u ∈ shares, t.value.length = u.value.length) →
      ¬ (shares.map Share.id).Nodup → combine shares = .error .duplicateCoordinate)

/-- The round trip that R149 quotes: any k or more of the n shares, in any order, combine to the secret exactly. -/
def Obligations.SplitCombineRoundTrip : Prop :=
  ∀ (n k : Nat) (secret : List Byte) (rng : Nat → Byte) (order : Equiv.Perm (Fin n)) (shares chosen : List Share),
    split n k secret rng order = .ok shares → chosen ⊆ shares → chosen.Nodup → k ≤ chosen.length →
    combine chosen = .ok secret

/-- R176, R91, R35, R36: a host that runs the statements of R176 for one byte on the idle block, under every schedule
without a reset, loads the points, and reads the interpolated byte from RESULT. That the engine and then the host move
once the schedule is empty is the model's choice (log entry 1). -/
def Obligations.CombineScriptRecoversByte : Prop :=
  ∀ (s : State) (points : List (Byte × Byte)) (r : Byte) (schedule : List Turn), s.pend = none → s.faulted = false →
    points ≠ [] → points.length ≤ 256 → lagrange0 points = .ok r → .reset ∉ schedule →
    ∃ t, Host.Core.run core (schedule.length + (points.length + 4))
        { s with host := combineScript points, turns := schedule } = .next t ∧
      t.resp = some (.readOkay (r.setWidth 32)) ∧ t.rval = r ∧ t.pend = none ∧ t.done = true ∧ t.err = false ∧
      t.host = [] ∧ t.turns = [] ∧ t.faulted = false ∧ t.mem.coef = s.mem.coef ∧
      ∀ j, j < points.length → t.mem.point.read j = points[j]?

/-- R173, R91, R35, R36: a host that runs the statements of R173 for one byte on the idle block, under every schedule
without a reset, loads the coefficients and ends without an error; and for each x in 1..n there is a point of the run at
which the x-th read of RESULT, after which 3·(n − x) statements are left, has returned the value at x. That the engine and
then the host move once the schedule is empty is the model's choice (log entry 1). -/
def Obligations.SplitScriptEvaluates : Prop :=
  ∀ (s : State) (n : Nat) (poly : List Byte) (schedule : List Turn), s.pend = none → s.faulted = false →
    1 ≤ n → n ≤ 255 → poly ≠ [] → poly.length ≤ 256 → .reset ∉ schedule →
    (∃ t, Host.Core.run core (schedule.length + (poly.length + 4 * n))
        { s with host := splitScript n poly, turns := schedule } = .next t ∧
      t.pend = none ∧ t.done = true ∧ t.err = false ∧ t.host = [] ∧ t.turns = [] ∧ t.faulted = false ∧
      t.mem.point = s.mem.point ∧ ∀ j, j < poly.length → t.mem.coef.read j = poly[j]?) ∧
    ∀ x, 1 ≤ x → x ≤ n →
      ∃ k u, k ≤ schedule.length + (poly.length + 4 * n) ∧
        Host.Core.run core k { s with host := splitScript n poly, turns := schedule } = .next u ∧
        u.host.length = 3 * (n - x) ∧
        u.resp = some (.readOkay ((polyEval poly (BitVec.ofNat 8 x)).setWidth 32))
end

