-- ==== Sys2Proof/Laws/State.lean ====
section
/-! SUPPORT. One lemma per field of State for each operation that makes a state, so that no proof unfolds a record
update. -/

namespace Sys2Proof.Machine

variable (s : State)

/-! ### issue: issue (R35) -/

@[simp] theorem State.issue_pend (w : Word) : (s.issue w).pend = some w := rfl
@[simp] theorem State.issue_done (w : Word) : (s.issue w).done = false := rfl
@[simp] theorem State.issue_err (w : Word) : (s.issue w).err = false := rfl
@[simp] theorem State.issue_errcode (w : Word) : (s.issue w).errcode = 0 := rfl
@[simp] theorem State.issue_rval (w : Word) : (s.issue w).rval = s.rval := rfl
@[simp] theorem State.issue_mem (w : Word) : (s.issue w).mem = s.mem := rfl
@[simp] theorem State.issue_host (w : Word) : (s.issue w).host = s.host := rfl
@[simp] theorem State.issue_turns (w : Word) : (s.issue w).turns = s.turns := rfl
@[simp] theorem State.issue_resp (w : Word) : (s.issue w).resp = s.resp := rfl
@[simp] theorem State.issue_faulted (w : Word) : (s.issue w).faulted = s.faulted := rfl

/-! ### completeOk: a successful completion (R36) -/

@[simp] theorem State.completeOk_pend (r : Byte) : (s.completeOk r).pend = none := rfl
@[simp] theorem State.completeOk_done (r : Byte) : (s.completeOk r).done = true := rfl
@[simp] theorem State.completeOk_err (r : Byte) : (s.completeOk r).err = false := rfl
@[simp] theorem State.completeOk_errcode (r : Byte) : (s.completeOk r).errcode = 0 := rfl
@[simp] theorem State.completeOk_rval (r : Byte) : (s.completeOk r).rval = r := rfl
@[simp] theorem State.completeOk_mem (r : Byte) : (s.completeOk r).mem = s.mem := rfl
@[simp] theorem State.completeOk_host (r : Byte) : (s.completeOk r).host = s.host := rfl
@[simp] theorem State.completeOk_turns (r : Byte) : (s.completeOk r).turns = s.turns := rfl
@[simp] theorem State.completeOk_resp (r : Byte) : (s.completeOk r).resp = s.resp := rfl
@[simp] theorem State.completeOk_faulted (r : Byte) : (s.completeOk r).faulted = s.faulted := rfl

/-! ### completeErr: the error entry (R203) -/

@[simp] theorem State.completeErr_pend (c : ErrCode) : (s.completeErr c).pend = none := rfl
@[simp] theorem State.completeErr_done (c : ErrCode) : (s.completeErr c).done = true := rfl
@[simp] theorem State.completeErr_err (c : ErrCode) : (s.completeErr c).err = true := rfl
@[simp] theorem State.completeErr_errcode (c : ErrCode) : (s.completeErr c).errcode = c.code := rfl
@[simp] theorem State.completeErr_rval (c : ErrCode) : (s.completeErr c).rval = s.rval := rfl
@[simp] theorem State.completeErr_mem (c : ErrCode) : (s.completeErr c).mem = s.mem := rfl
@[simp] theorem State.completeErr_host (c : ErrCode) : (s.completeErr c).host = s.host := rfl
@[simp] theorem State.completeErr_turns (c : ErrCode) : (s.completeErr c).turns = s.turns := rfl
@[simp] theorem State.completeErr_resp (c : ErrCode) : (s.completeErr c).resp = s.resp := rfl
@[simp] theorem State.completeErr_faulted (c : ErrCode) : (s.completeErr c).faulted = s.faulted := rfl

/-! ### setCoef: a COEF write (R57) -/

@[simp] theorem State.setCoef_pend (i : Nat) (c : Byte) : (s.setCoef i c).pend = s.pend := rfl
@[simp] theorem State.setCoef_done (i : Nat) (c : Byte) : (s.setCoef i c).done = s.done := rfl
@[simp] theorem State.setCoef_err (i : Nat) (c : Byte) : (s.setCoef i c).err = s.err := rfl
@[simp] theorem State.setCoef_errcode (i : Nat) (c : Byte) : (s.setCoef i c).errcode = s.errcode := rfl
@[simp] theorem State.setCoef_rval (i : Nat) (c : Byte) : (s.setCoef i c).rval = s.rval := rfl
@[simp] theorem State.setCoef_mem (i : Nat) (c : Byte) : (s.setCoef i c).mem = { s.mem with coef := s.mem.coef.write i c } := rfl
@[simp] theorem State.setCoef_host (i : Nat) (c : Byte) : (s.setCoef i c).host = s.host := rfl
@[simp] theorem State.setCoef_turns (i : Nat) (c : Byte) : (s.setCoef i c).turns = s.turns := rfl
@[simp] theorem State.setCoef_resp (i : Nat) (c : Byte) : (s.setCoef i c).resp = s.resp := rfl
@[simp] theorem State.setCoef_faulted (i : Nat) (c : Byte) : (s.setCoef i c).faulted = s.faulted := rfl

/-! ### setPoint: a POINT write (R57) -/

@[simp] theorem State.setPoint_pend (i : Nat) (x y : Byte) : (s.setPoint i x y).pend = s.pend := rfl
@[simp] theorem State.setPoint_done (i : Nat) (x y : Byte) : (s.setPoint i x y).done = s.done := rfl
@[simp] theorem State.setPoint_err (i : Nat) (x y : Byte) : (s.setPoint i x y).err = s.err := rfl
@[simp] theorem State.setPoint_errcode (i : Nat) (x y : Byte) : (s.setPoint i x y).errcode = s.errcode := rfl
@[simp] theorem State.setPoint_rval (i : Nat) (x y : Byte) : (s.setPoint i x y).rval = s.rval := rfl
@[simp] theorem State.setPoint_mem (i : Nat) (x y : Byte) : (s.setPoint i x y).mem = { s.mem with point := s.mem.point.write i (x, y) } := rfl
@[simp] theorem State.setPoint_host (i : Nat) (x y : Byte) : (s.setPoint i x y).host = s.host := rfl
@[simp] theorem State.setPoint_turns (i : Nat) (x y : Byte) : (s.setPoint i x y).turns = s.turns := rfl
@[simp] theorem State.setPoint_resp (i : Nat) (x y : Byte) : (s.setPoint i x y).resp = s.resp := rfl
@[simp] theorem State.setPoint_faulted (i : Nat) (x y : Byte) : (s.setPoint i x y).faulted = s.faulted := rfl

/-! ### respond: a bus response (R58) -/

@[simp] theorem State.respond_pend (r : BusResp) : (s.respond r).pend = s.pend := rfl
@[simp] theorem State.respond_done (r : BusResp) : (s.respond r).done = s.done := rfl
@[simp] theorem State.respond_err (r : BusResp) : (s.respond r).err = s.err := rfl
@[simp] theorem State.respond_errcode (r : BusResp) : (s.respond r).errcode = s.errcode := rfl
@[simp] theorem State.respond_rval (r : BusResp) : (s.respond r).rval = s.rval := rfl
@[simp] theorem State.respond_mem (r : BusResp) : (s.respond r).mem = s.mem := rfl
@[simp] theorem State.respond_host (r : BusResp) : (s.respond r).host = s.host.tail := rfl
@[simp] theorem State.respond_turns (r : BusResp) : (s.respond r).turns = s.turns := rfl
@[simp] theorem State.respond_resp (r : BusResp) : (s.respond r).resp = some r := rfl
@[simp] theorem State.respond_faulted (r : BusResp) : (s.respond r).faulted = (s.faulted || decide (r = .busError)) := rfl

/-! ### resetEvent: the reset event (R231) -/

@[simp] theorem State.resetEvent_pend : (s.resetEvent).pend = none := rfl
@[simp] theorem State.resetEvent_done : (s.resetEvent).done = false := rfl
@[simp] theorem State.resetEvent_err : (s.resetEvent).err = false := rfl
@[simp] theorem State.resetEvent_errcode : (s.resetEvent).errcode = 0 := rfl
@[simp] theorem State.resetEvent_rval : (s.resetEvent).rval = 0 := rfl
@[simp] theorem State.resetEvent_mem : (s.resetEvent).mem = { coef := [], point := [] } := rfl
@[simp] theorem State.resetEvent_host : (s.resetEvent).host = s.host := rfl
@[simp] theorem State.resetEvent_turns : (s.resetEvent).turns = s.turns := rfl
@[simp] theorem State.resetEvent_resp : (s.resetEvent).resp = s.resp := rfl
@[simp] theorem State.resetEvent_faulted : (s.resetEvent).faulted = s.faulted := rfl

/-! ### passBy: an access outside the window (R50) -/

@[simp] theorem State.passBy_pend : (s.passBy).pend = s.pend := rfl
@[simp] theorem State.passBy_done : (s.passBy).done = s.done := rfl
@[simp] theorem State.passBy_err : (s.passBy).err = s.err := rfl
@[simp] theorem State.passBy_errcode : (s.passBy).errcode = s.errcode := rfl
@[simp] theorem State.passBy_rval : (s.passBy).rval = s.rval := rfl
@[simp] theorem State.passBy_mem : (s.passBy).mem = s.mem := rfl
@[simp] theorem State.passBy_host : (s.passBy).host = s.host.tail := rfl
@[simp] theorem State.passBy_turns : (s.passBy).turns = s.turns := rfl
@[simp] theorem State.passBy_resp : (s.passBy).resp = none := rfl
@[simp] theorem State.passBy_faulted : (s.passBy).faulted = s.faulted := rfl

/-! ### The two ends of a command, as the statements write them -/

@[simp] theorem State.afterSuccess_pend (r : Byte) : (s.afterSuccess r).pend = none := rfl
@[simp] theorem State.afterSuccess_done (r : Byte) : (s.afterSuccess r).done = true := rfl
@[simp] theorem State.afterSuccess_err (r : Byte) : (s.afterSuccess r).err = false := rfl
@[simp] theorem State.afterSuccess_errcode (r : Byte) : (s.afterSuccess r).errcode = 0 := rfl
@[simp] theorem State.afterSuccess_rval (r : Byte) : (s.afterSuccess r).rval = r := rfl
@[simp] theorem State.afterSuccess_mem (r : Byte) : (s.afterSuccess r).mem = s.mem := rfl
@[simp] theorem State.afterSuccess_host (r : Byte) : (s.afterSuccess r).host = s.host := rfl
@[simp] theorem State.afterSuccess_turns (r : Byte) : (s.afterSuccess r).turns = s.turns := rfl
@[simp] theorem State.afterSuccess_resp (r : Byte) : (s.afterSuccess r).resp = s.resp := rfl
@[simp] theorem State.afterSuccess_faulted (r : Byte) : (s.afterSuccess r).faulted = s.faulted := rfl
@[simp] theorem State.afterError_pend (code : BitVec 4) : (s.afterError code).pend = none := rfl
@[simp] theorem State.afterError_done (code : BitVec 4) : (s.afterError code).done = true := rfl
@[simp] theorem State.afterError_err (code : BitVec 4) : (s.afterError code).err = true := rfl
@[simp] theorem State.afterError_errcode (code : BitVec 4) : (s.afterError code).errcode = code := rfl
@[simp] theorem State.afterError_rval (code : BitVec 4) : (s.afterError code).rval = s.rval := rfl
@[simp] theorem State.afterError_mem (code : BitVec 4) : (s.afterError code).mem = s.mem := rfl
@[simp] theorem State.afterError_host (code : BitVec 4) : (s.afterError code).host = s.host := rfl
@[simp] theorem State.afterError_turns (code : BitVec 4) : (s.afterError code).turns = s.turns := rfl
@[simp] theorem State.afterError_resp (code : BitVec 4) : (s.afterError code).resp = s.resp := rfl
@[simp] theorem State.afterError_faulted (code : BitVec 4) : (s.afterError code).faulted = s.faulted := rfl

theorem State.completeOk_eq (r : Byte) : s.completeOk r = s.afterSuccess r := rfl

theorem State.completeErr_eq (c : ErrCode) : s.completeErr c = s.afterError c.code := rfl

theorem finish_ok (r : Byte) : finish (.ok r) s = .next (s.afterSuccess r) := rfl

theorem finish_error (c : ErrCode) : finish (.error c) s = .next (s.afterError c.code) := rfl

end Sys2Proof.Machine
end

