-- ==== Sys2Proof/Laws/Memory.lean ====
section
/-! SUPPORT. The buffers: read after write, the canonical form, and what the two operand reads return. -/

namespace Sys2Proof.Machine

variable {α : Type}

@[simp] theorem Buffer.read_nil (i : Nat) : Buffer.read ([] : Buffer α) i = none := rfl

theorem Buffer.read_cons (k : Nat) (v : α) (b : Buffer α) (i : Nat) :
    Buffer.read ((k, v) :: b) i = if k = i then some v else Buffer.read b i := rfl

/-- A read after a write to the same entry gives what was written. -/
@[simp] theorem Buffer.read_write_same (b : Buffer α) (i : Nat) (v : α) : (Buffer.write b i v).read i = some v := by
  induction b with
  | nil => simp [Buffer.write, Buffer.read_cons]
  | cons p b ih =>
    obtain ⟨k, u⟩ := p
    simp only [Buffer.write]
    split
    · simp [Buffer.read_cons]
    · split
      · simp [Buffer.read_cons]
      · rename_i h; simp [Buffer.read_cons, ih, Ne.symm h]

/-- A write leaves every other entry alone. -/
theorem Buffer.read_write_other (b : Buffer α) {i j : Nat} (v : α) (h : j ≠ i) :
    (Buffer.write b i v).read j = b.read j := by
  induction b with
  | nil => simp [Buffer.write, Buffer.read_cons, Ne.symm h]
  | cons p b ih =>
    obtain ⟨k, u⟩ := p
    simp only [Buffer.write]
    split
    · simp [Buffer.read_cons, Ne.symm h]
    · split
      · rename_i h'; subst h'; simp [Buffer.read_cons, Ne.symm h]
      · simp [Buffer.read_cons, ih]

/-- The entries after a write are the old ones and the one written. -/
theorem Buffer.mem_write {b : Buffer α} {i : Nat} {v : α} {p : Nat × α} (h : p ∈ Buffer.write b i v) :
    p = (i, v) ∨ p ∈ b := by
  induction b with
  | nil => simpa [Buffer.write] using h
  | cons q b ih =>
    obtain ⟨k, u⟩ := q
    simp only [Buffer.write] at h
    split at h
    · simpa using h
    · split at h
      · rcases List.mem_cons.1 h with h | h
        · exact .inl h
        · exact .inr (List.mem_cons_of_mem _ h)
      · rcases List.mem_cons.1 h with h | h
        · exact .inr (h ▸ List.mem_cons_self)
        · exact (ih h).imp_right (List.mem_cons_of_mem _)

/-- A write to an entry within the depth keeps the canonical form. -/
theorem Buffer.write_wf {depth : Nat} {b : Buffer α} {i : Nat} {v : α} (hi : i < depth) (h : Buffer.wf depth b) :
    Buffer.wf depth (Buffer.write b i v) := by
  refine ⟨?_, fun p hp => ?_⟩
  · obtain ⟨hs, -⟩ := h
    induction b with
    | nil => simp [Buffer.write]
    | cons q b ih =>
      obtain ⟨k, u⟩ := q
      rw [List.pairwise_cons] at hs
      simp only [Buffer.write]
      split
      · rename_i hik
        refine List.pairwise_cons.2 ⟨fun p hp => ?_, List.pairwise_cons.2 hs⟩
        rcases List.mem_cons.1 hp with rfl | hp
        · exact hik
        · exact Nat.lt_trans hik (hs.1 p hp)
      · split
        · rename_i h'; subst h'; exact List.pairwise_cons.2 hs
        · refine List.pairwise_cons.2 ⟨fun p hp => ?_, ih hs.2⟩
          rcases Buffer.mem_write hp with rfl | hp
          · show k < i; omega
          · exact hs.1 p hp
  · rcases Buffer.mem_write hp with rfl | hp
    · exact hi
    · exact h.2 p hp

/-- In a buffer in canonical form, an entry at or above the depth is unwritten. -/
theorem Buffer.read_eq_none_of_depth {depth : Nat} {b : Buffer α} (h : ∀ p ∈ b, p.1 < depth) {i : Nat} (hi : depth ≤ i) :
    b.read i = none := by
  induction b with
  | nil => rfl
  | cons p b ih =>
    obtain ⟨k, u⟩ := p
    have hk : k < depth := h (k, u) List.mem_cons_self
    rw [Buffer.read_cons, if_neg (by omega), ih fun p hp => h p (List.mem_cons_of_mem _ hp)]

theorem Memory.reset_wf : State.reset.mem.wf := by decide

theorem Memory.setCoef_wf {s : State} {i : Nat} {c : Byte} (hi : i < Config.coefDepth) (h : s.mem.wf) :
    (s.setCoef i c).mem.wf :=
  ⟨Buffer.write_wf hi h.1, h.2⟩

theorem Memory.setPoint_wf {s : State} {i : Nat} {x y : Byte} (hi : i < Config.pointDepth) (h : s.mem.wf) :
    (s.setPoint i x y).mem.wf :=
  ⟨h.1, Buffer.write_wf hi h.2⟩

/-! ### Operand reads -/

variable {b : Buffer α} {unwritten : Nat → Fault}

/-- Entries that are all written are returned in index order. -/
theorem entriesFrom_of_written {i n : Nat} (f : Nat → α) (h : ∀ k, k < n → b.read (i + k) = some (f (i + k))) :
    entriesFrom b unwritten i n = .ok ((List.range' i n).map f) := by
  induction n generalizing i with
  | zero => rfl
  | succ n ih =>
    have h0 := h 0 (by omega)
    have hr := ih (i := i + 1) fun k hk => by
      have := h (k + 1) (by omega)
      rwa [show i + 1 + k = i + (k + 1) by omega]
    rw [Nat.add_zero] at h0
    simp [entriesFrom, h0, hr, List.range'_succ]

/-- Everything an operand read can do: return as many entries as asked for, each as the buffer holds it, or name an
unwritten entry of the range. -/
theorem entriesFrom_cases (b : Buffer α) (unwritten : Nat → Fault) (i n : Nat) :
    (∃ vs, entriesFrom b unwritten i n = .ok vs ∧ vs.length = n ∧ ∀ k, k < n → b.read (i + k) = vs[k]?) ∨
    (∃ k, k < n ∧ b.read (i + k) = none ∧ entriesFrom b unwritten i n = .error (unwritten (i + k))) := by
  induction n generalizing i with
  | zero => exact .inl ⟨[], rfl, rfl, by omega⟩
  | succ n ih =>
    cases h : b.read i with
    | none => exact .inr ⟨0, by omega, h, by simp [entriesFrom, h]⟩
    | some v =>
      rcases ih (i + 1) with ⟨vs, hvs, hlen, hget⟩ | ⟨k, hk, hnone, herr⟩
      · refine .inl ⟨v :: vs, by simp [entriesFrom, h, hvs], by simp [hlen], fun k hk => ?_⟩
        cases k with
        | zero => simpa using h
        | succ k => simpa [show i + 1 + k = i + (k + 1) by omega] using hget k (by omega)
      · exact .inr ⟨k + 1, by omega, by rwa [show i + (k + 1) = i + 1 + k by omega],
          by simp [entriesFrom, h, herr, show i + (k + 1) = i + 1 + k by omega]⟩

/-- An operand read looks only at the entries of its range. -/
theorem entriesFrom_congr {b b' : Buffer α} {i n : Nat} (h : ∀ k, k < n → b.read (i + k) = b'.read (i + k)) :
    entriesFrom b unwritten i n = entriesFrom b' unwritten i n := by
  induction n generalizing i with
  | zero => rfl
  | succ n ih =>
    have h0 := h 0 (by omega)
    rw [Nat.add_zero] at h0
    rw [entriesFrom, entriesFrom, h0, ih fun k hk => by simpa [show i + 1 + k = i + (k + 1) by omega] using h (k + 1) (by omega)]

end Sys2Proof.Machine
end

