-- ==== Sys2Proof/Laws/Exec.lean ====
section
/-! SUPPORT. What each command, the engine, the port and the step can do, said once: every invariant is derived from
these. -/

namespace Sys2Proof.Machine

/-- A command that completes ends in one of the two completions of R36. -/
theorem finish_cases {r : Except ErrCode Byte} {s t : State} (h : finish r s = .next t) :
    (∃ v, r = .ok v ∧ t = s.afterSuccess v) ∨ ∃ c, r = .error c ∧ t = s.afterError c.code := by
  cases r with
  | ok v => exact .inl ⟨v, rfl, by simpa [finish_ok] using h.symm⟩
  | error c => exact .inr ⟨c, rfl, by simpa [finish_error] using h.symm⟩

theorem finish_ne_fault {r : Except ErrCode Byte} {s : State} {f : Fault} : finish r s ≠ .fault f := by
  cases r <;> simp [finish]

theorem finish_ne_refused {r : Except ErrCode Byte} {s : State} {f : Refusal} : finish r s ≠ .refused f := by
  cases r <;> simp [finish]

/-- Everything a command can do: complete with a value or with an error code (R36), or read an unwritten entry (R32). -/
theorem exec_cases (i : Instr) (s : State) :
    (∃ r, exec i s = finish r s) ∨
    (∃ k, s.mem.coef.read k = none ∧ exec i s = .fault (.unwrittenCoef k) ∧ ∃ x d, i = .eval x d ∧ k ≤ d) ∨
    (∃ k, s.mem.point.read k = none ∧ exec i s = .fault (.unwrittenPoint k) ∧ ∃ m, i = .interp m ∧ k < m) := by
  cases i with
  | add a b => exact .inl ⟨.ok (gadd a b), rfl⟩
  | mul a b => exact .inl ⟨.ok (gmul a b), rfl⟩
  | div a b => exact .inl ⟨gdiv a b, rfl⟩
  | log a =>
    by_cases h : a = 0
    · exact .inl ⟨_, by simp only [exec, execLog, if_pos h]; rfl⟩
    · exact .inl ⟨_, by simp only [exec, execLog, if_neg h]; rfl⟩
  | exp i =>
    by_cases h : i < 255
    · exact .inl ⟨_, by simp only [exec, execExp, dif_pos h]; rfl⟩
    · exact .inl ⟨_, by simp only [exec, execExp, dif_neg h]; rfl⟩
  | eval x d =>
    rcases entriesFrom_cases s.mem.coef .unwrittenCoef 0 (d + 1) with ⟨vs, h, -, -⟩ | ⟨k, hk, hnone, h⟩
    · exact .inl ⟨_, by simp only [exec, execEval, coefOperand, h]; rfl⟩
    · exact .inr (.inl ⟨k, by simpa using hnone, by simp [exec, execEval, coefOperand, h], x, d, rfl, by omega⟩)
  | interp m =>
    rcases entriesFrom_cases s.mem.point .unwrittenPoint 0 m with ⟨vs, h, -, -⟩ | ⟨k, hk, hnone, h⟩
    · exact .inl ⟨_, by simp only [exec, execInterp, pointOperand, h]; rfl⟩
    · exact .inr (.inr ⟨k, by simpa using hnone, by simp [exec, execInterp, pointOperand, h], m, rfl, hk⟩)

/-- A command that answers a next state is in one of the two ends of R36. -/
theorem exec_next {i : Instr} {s t : State} (h : exec i s = .next t) :
    (∃ v, t = s.afterSuccess v) ∨ ∃ c : ErrCode, t = s.afterError c.code := by
  rcases exec_cases i s with ⟨r, hr⟩ | ⟨k, -, hk, -⟩ | ⟨k, -, hk, -⟩
  · rw [hr] at h
    exact (finish_cases h).imp (fun ⟨v, _, e⟩ => ⟨v, e⟩) fun ⟨c, _, e⟩ => ⟨c, e⟩
  · simp [hk] at h
  · simp [hk] at h

/-- The engine's step answers a next state only by staying idle or by one of the two completions. -/
theorem engineStep_next {s t : State} (h : engineStep s = .next t) :
    (s.pend = none ∧ t = s) ∨
    (s.pend ≠ none ∧ ((∃ v, t = s.afterSuccess v) ∨ ∃ c : ErrCode, t = s.afterError c.code)) := by
  unfold engineStep at h
  split at h
  · rename_i w hw
    refine .inr ⟨by simp [hw], ?_⟩
    unfold execWord at h
    split at h
    · exact exec_next h
    · exact (finish_cases h).imp (fun ⟨v, _, e⟩ => ⟨v, e⟩) fun ⟨c, _, e⟩ => ⟨c, e⟩
  · rename_i hw
    exact .inl ⟨hw, by simpa using h.symm⟩

/-- An aligned 4-byte access, as a proposition (R53, R54). -/
theorem wordAccess_iff {off : Offset} {size : Nat} : wordAccess off size = true ↔ size = 4 ∧ off.toNat % 4 = 0 := by
  simp [wordAccess]

/-- The address map of R51, inverted: where the target is a COEF entry. -/
theorem target_coef {off : Offset} {i : Nat} (h : target off = .coef i) :
    0x400 ≤ off.toNat ∧ off.toNat ≤ 0x7FF ∧ i = (off.toNat - 0x400) / 4 ∧ i < 256 := by
  unfold target at h
  repeat' split at h
  all_goals cases h
  exact ⟨by omega, by omega, rfl, by omega⟩

/-- The address map of R51, inverted: where the target is a POINT entry. -/
theorem target_point {off : Offset} {i : Nat} (h : target off = .point i) :
    0x800 ≤ off.toNat ∧ off.toNat ≤ 0xBFF ∧ i = (off.toNat - 0x800) / 4 ∧ i < 256 := by
  unfold target at h
  repeat' split at h
  all_goals cases h
  exact ⟨by omega, by omega, rfl, by omega⟩

/-- COEF entry i stands at 0x400 + 4·i (R57). -/
theorem target_of_coef {off : Offset} {i : Nat} (hi : i < 256) (h : off.toNat = 0x400 + 4 * i) : target off = .coef i := by
  unfold target
  rw [if_neg (by omega), if_neg (by omega), if_neg (by omega), if_neg (by omega), if_pos (by omega), h]
  congr 1; omega

/-- POINT entry i stands at 0x800 + 4·i (R57). -/
theorem target_of_point {off : Offset} {i : Nat} (hi : i < 256) (h : off.toNat = 0x800 + 4 * i) :
    target off = .point i := by
  unfold target
  rw [if_neg (by omega), if_neg (by omega), if_neg (by omega), if_neg (by omega), if_neg (by omega), if_pos (by omega), h]
  congr 1; omega

/-- Everything an accepted write can do (R35, R57), and that it is accepted only while no command is pending (R59). -/
theorem busWrite_cases {off : Offset} {size : Nat} {v : Word} {s t : State} (h : busWrite off size v s = some t) :
    size = 4 ∧ s.pend = none ∧
      ((target off = .cmd ∧ t = s.issue v) ∨
       (∃ i, target off = .coef i ∧ t = s.setCoef i (byteLane v 0)) ∨
       ∃ i, target off = .point i ∧ t = s.setPoint i (byteLane v 1) (byteLane v 0)) := by
  unfold busWrite at h
  split at h
  · rename_i hw
    refine ⟨(wordAccess_iff.1 hw).1, ?_⟩
    split at h
    all_goals first | cases h | skip
    all_goals
      split at h
      · cases h
      · rename_i ht hb
        refine ⟨by simpa [State.busy] using hb, ?_⟩
        cases h
        simp [ht]
  · cases h

/-- A read faults only on an unwritten entry (R32). -/
theorem busRead_fault {off : Offset} {size : Nat} {s : State} {f : Fault} (h : busRead off size s = .error f) :
    (∃ i, i < 256 ∧ s.mem.coef.read i = none ∧ f = .unwrittenCoef i) ∨
    ∃ i, i < 256 ∧ s.mem.point.read i = none ∧ f = .unwrittenPoint i := by
  unfold busRead at h
  split at h
  · split at h
    all_goals first | cases h | skip
    · rename_i i ht
      split at h
      · cases h
      · rename_i hr; cases h; exact .inl ⟨i, (target_coef ht).2.2.2, hr, rfl⟩
    · rename_i i ht
      split at h
      · cases h
      · rename_i hr; cases h; exact .inr ⟨i, (target_point ht).2.2.2, hr, rfl⟩
  · cases h

/-- GF_BASE + off reaches the block at off (R91). -/
@[simp] theorem windowOffset_busAddress (off : Offset) : windowOffset (busAddress off) = some off := by
  have h := off.isLt
  rw [windowOffset, busAddress, if_pos (by simp only [Config.windowBytes]; omega), Nat.add_sub_cancel_left]
  simp

/-- The addresses of the window are exactly the GF_BASE + off (R50). -/
theorem windowOffset_eq_some {addr : Nat} {off : Offset} : windowOffset addr = some off ↔ addr = busAddress off := by
  refine ⟨fun h => ?_, fun h => h ▸ windowOffset_busAddress off⟩
  unfold windowOffset at h
  split at h
  · rename_i hw
    cases h
    simp only [Config.windowBytes] at hw
    rw [busAddress, BitVec.toNat_ofNat, Nat.mod_eq_of_lt (by omega)]
    omega
  · cases h

/-- With an aligned base the offset is the low 12 bits of the address: "the block decodes only addr[11:0]" (R50). -/
theorem windowOffset_low_bits {addr : Nat} {off : Offset} (hb : 4096 ∣ Config.gfBase) (h : windowOffset addr = some off) :
    off = BitVec.ofNat 12 addr := by
  rw [windowOffset_eq_some.1 h, busAddress]
  apply BitVec.eq_of_toNat_eq
  have := off.isLt
  rw [BitVec.toNat_ofNat]
  omega

/-- A read at GF_BASE + off is a read at the port's offset off. -/
@[simp] theorem hostDo_read (off : Offset) (size : Nat) (s : State) :
    hostDo (.read (busAddress off) size) s = hostRead off size s := by
  simp [hostDo]

/-- A write at GF_BASE + off is a write at the port's offset off. -/
@[simp] theorem hostDo_write (off : Offset) (size : Nat) (v : Word) (s : State) :
    hostDo (.write (busAddress off) size v) s = hostWrite off size v s := by
  simp [hostDo]

/-! ### The statements of R91 as accesses at an offset -/

/-- An off of the window names the port's offset off. -/
theorem gfBase_add_eq_busAddress {off : Nat} (h : off < 0x1000) :
    Config.gfBase + off = busAddress (BitVec.ofNat 12 off) := by
  rw [busAddress, BitVec.toNat_ofNat, Nat.mod_eq_of_lt h]

/-- An off above the window reaches no offset of the block (R50). -/
theorem windowOffset_gfBase_add_eq_none {off : Nat} (h : 0x1000 ≤ off) : windowOffset (Config.gfBase + off) = none :=
  if_neg (by simp only [Config.windowBytes]; omega)

theorem HostStmt.wr_eq_write {off : Nat} (h : off < 0x1000) (v : Word) :
    HostStmt.wr off v = .write (busAddress (BitVec.ofNat 12 off)) 4 v := by
  rw [HostStmt.wr, gfBase_add_eq_busAddress h]

theorem HostStmt.rd_eq_read {off : Nat} (h : off < 0x1000) :
    HostStmt.rd off = .read (busAddress (BitVec.ofNat 12 off)) 4 := by
  rw [HostStmt.rd, gfBase_add_eq_busAddress h]

theorem HostStmt.setc_eq_write {i : Nat} (h : i < 256) (v : Byte) :
    HostStmt.setc i v = .write (busAddress (BitVec.ofNat 12 (0x400 + 4 * i))) 4 (v.setWidth 32) :=
  HostStmt.wr_eq_write (by omega) _

theorem HostStmt.setp_eq_write {i : Nat} (h : i < 256) (x y : Byte) :
    HostStmt.setp i x y =
      .write (busAddress (BitVec.ofNat 12 (0x800 + 4 * i))) 4 ((x.setWidth 32 <<< 8) ||| y.setWidth 32) :=
  HostStmt.wr_eq_write (by omega) _

theorem HostStmt.issue_eq_write (w : Word) : HostStmt.issue w = .write (busAddress 0x000) 4 w :=
  HostStmt.wr_eq_write (by omega) _

/-- A host that has not been marked performs its first statement. -/
theorem hostStep_cons {s : State} {st : HostStmt} {rest : List HostStmt} (hf : s.faulted = false)
    (hh : s.host = st :: rest) : hostStep s = hostDo st s := by
  simp [hostStep, hf, hh]

/-- Everything the host's step can do when it answers a next state. -/
theorem hostStep_next {s t : State} (h : hostStep s = .next t) :
    t = s ∨
    (s.faulted = false ∧ ∃ st rest, s.host = st :: rest ∧
      ((∃ r, t = s.respond r) ∨ t = s.passBy ∨ (∃ w, st = .wait ∧ t = { s with resp := some (.readOkay w) }) ∨
        ∃ off size v u, st = .write (busAddress off) size v ∧ busWrite off size v s = some u ∧
          t = u.respond .writeOkay)) := by
  unfold hostStep at h
  split at h
  · exact .inl (by simpa using h.symm)
  · rename_i hf
    split at h
    · exact .inl (by simpa using h.symm)
    · rename_i st rest hst
      refine .inr ⟨by simpa using hf, st, rest, hst, ?_⟩
      unfold hostDo at h
      split at h
      · split at h
        · unfold hostRead at h
          split at h
          · cases h; exact .inl ⟨_, rfl⟩
          · cases h
        · cases h; exact .inr (.inl rfl)
      · split at h
        · rename_i off ho
          unfold hostWrite at h
          split at h
          · rename_i u hu
            cases h
            exact .inr (.inr (.inr ⟨off, _, _, u, by rw [windowOffset_eq_some.1 ho], hu, rfl⟩))
          · cases h; exact .inl ⟨_, rfl⟩
        · cases h; exact .inr (.inl rfl)
      · split at h
        · cases h; exact .inr (.inr (.inl ⟨_, rfl, rfl⟩))
        · cases h; exact .inl ⟨_, rfl⟩

/-- Which agent moves: the schedule's, or where it names nobody the engine with a pending command, else the host. -/
theorem step_cases (s : State) :
    (∃ ts, s.turns = .engine :: ts ∧ step s = engineStep { s with turns := ts }) ∨
    (∃ ts, s.turns = .host :: ts ∧ step s = hostStep { s with turns := ts }) ∨
    (∃ ts, s.turns = .reset :: ts ∧ step s = .next (State.resetEvent { s with turns := ts })) ∨
    (s.turns = [] ∧ s.pend ≠ none ∧ step s = engineStep s) ∨
    (s.turns = [] ∧ s.pend = none ∧ step s = hostStep s) := by
  unfold step
  split
  · rename_i ts h; exact .inl ⟨ts, h, rfl⟩
  · rename_i ts h; exact .inr (.inl ⟨ts, h, rfl⟩)
  · rename_i ts h; exact .inr (.inr (.inl ⟨ts, h, rfl⟩))
  · rename_i h
    by_cases hb : s.pend = none
    · exact .inr (.inr (.inr (.inr ⟨h, hb, by simp [State.busy, hb]⟩)))
    · refine .inr (.inr (.inr (.inl ⟨h, hb, ?_⟩)))
      rw [if_pos]
      simpa [State.busy, Option.isSome_iff_ne_none] using hb

/-! ### Runs -/

/-- A run goes on from the state that its first step answers. -/
theorem run_of_next {k : Nat} {s t : State} (h : step s = .next t) :
    Host.Core.run core (k + 1) s = Host.Core.run core k t := by
  have h' : core.step s = .next t := h
  simp only [Host.Core.run, h']

/-- A run ends with the fault that its first step answers. -/
theorem run_of_fault {k : Nat} {s : State} {f : Fault} (h : step s = .fault f) :
    Host.Core.run core (k + 1) s = .fault f := by
  have h' : core.step s = .fault f := h
  simp only [Host.Core.run, h']

end Sys2Proof.Machine
end

