-- ==== Sys2Proof/Laws/Field.lean ====
section
/-! SUPPORT. The small equations of the field and polynomial functions, each unfolding its definition once. -/

namespace Sys2Proof.Machine

@[simp] theorem gadd_eq (a b : Byte) : gadd a b = a ^^^ b := rfl

@[simp] theorem gmul_zero_left (b : Byte) : gmul 0 b = 0 := by simp [gmul]

@[simp] theorem gmul_zero_right (a : Byte) : gmul a 0 = 0 := by simp [gmul]

theorem gmul_of_ne {a b : Byte} (ha : a ≠ 0) (hb : b ≠ 0) : gmul a b = expMod ((logRom a).toNat + (logRom b).toNat) := by
  rw [gmul, if_neg (not_or.2 ⟨ha, hb⟩)]

@[simp] theorem gdiv_zero_right (a : Byte) : gdiv a 0 = .error .divByZero := by simp [gdiv]

theorem gdiv_zero_left {b : Byte} (hb : b ≠ 0) : gdiv 0 b = .ok 0 := by rw [gdiv, if_neg hb, if_pos rfl]

theorem gdiv_of_ne {a b : Byte} (ha : a ≠ 0) (hb : b ≠ 0) :
    gdiv a b = .ok (expMod ((logRom a).toNat + 255 - (logRom b).toNat)) := by
  rw [gdiv, if_neg hb, if_neg ha]

/-- Division by a non-zero byte succeeds (R111). -/
theorem gdiv_ok {a b : Byte} (hb : b ≠ 0) : gdiv a b = .ok (gquot a b) := by
  by_cases ha : a = 0
  · subst ha; rw [gquot, gdiv_zero_left hb]
  · rw [gquot, gdiv_of_ne ha hb]

@[simp] theorem polyEval_single (c x : Byte) : polyEval [c] x = c := rfl

theorem polyEval_cons (c c' : Byte) (cs : List Byte) (x : Byte) :
    polyEval (c :: c' :: cs) x = gmul (polyEval (c' :: cs) x) x ^^^ c := rfl

/-- Where no other x-coordinate equals x_i, the inner loop of R146 meets no zero divisor and returns the product of the
quotients. -/
theorem basisLoop_ok {xi : Byte} {others : List Byte} (l : Byte) (h : ∀ xj ∈ others, xj ≠ xi) :
    basisLoop xi l others = .ok (others.foldl (fun l xj => gmul l (gquot xj (xj ^^^ xi))) l) := by
  induction others generalizing l with
  | nil => rfl
  | cons xj r ih =>
    have hd : xj ^^^ xi ≠ 0 := fun e => h xj List.mem_cons_self (BitVec.xor_eq_zero_iff.1 e)
    rw [basisLoop, gadd_eq, gdiv_ok hd]
    exact ih _ fun x hx => h x (List.mem_cons_of_mem _ hx)

@[simp] theorem hasDuplicate_nil : hasDuplicate [] = false := rfl

/-- The duplicate check of R145 says whether the list has a repeat. -/
theorem hasDuplicate_iff (xs : List Byte) : hasDuplicate xs = true ↔ ¬ xs.Nodup := by
  induction xs with
  | nil => simp
  | cons x xs ih => rw [List.nodup_cons, hasDuplicate, Bool.or_eq_true, ih, List.contains_iff_mem]; tauto

@[simp] theorem xorSum_zero (f : Nat → Byte) : xorSum f 0 = 0 := rfl

theorem xorSum_succ (f : Nat → Byte) (n : Nat) : xorSum f (n + 1) = xorSum f n ^^^ f n := rfl

@[simp] theorem gprod_zero (f : Nat → Byte) : gprod f 0 = 0x01 := rfl

theorem gprod_succ (f : Nat → Byte) (n : Nat) : gprod f (n + 1) = gmul (gprod f n) (f n) := rfl

@[simp] theorem gpow_zero (x : Byte) : gpow x 0 = 0x01 := rfl

theorem gpow_succ (x : Byte) (k : Nat) : gpow x (k + 1) = gmul (gpow x k) x := rfl

theorem powerWalk_succ (g : Byte) (i : Nat) : powerWalk g (i + 1) = pmul (powerWalk g i) g := rfl

end Sys2Proof.Machine
end

