-- ==== Sys2Proof/Laws/PerInstr.lean ====
section
/-! SUPPORT. A statement about every command, one lemma per constructor: the fields that the encoder writes
(30_encoding.md R81, R82, R84). -/

namespace Sys2Proof

/-- A concatenation as a number. -/
theorem toNat_append_eq {v w : Nat} (x : BitVec v) (y : BitVec w) : (x ++ y).toNat = x.toNat * 2 ^ w + y.toNat := by
  rw [BitVec.toNat_append, ← Nat.shiftLeft_add_eq_or_of_lt y.isLt, Nat.shiftLeft_eq]

/-- The four fields of a packed word are the ones it was packed from. -/
theorem packWord_fields (opc : BitVec 4) (a b : Byte) :
    fieldOPC (packWord opc a b) = opc ∧ fieldRSV (packWord opc a b) = 0 ∧
      fieldA (packWord opc a b) = a ∧ fieldB (packWord opc a b) = b := by
  have ho := opc.isLt
  have ha := a.isLt
  have hb := b.isLt
  have hw : (packWord opc a b).toNat = opc.toNat * 2 ^ 28 + a.toNat * 2 ^ 8 + b.toNat := by
    simp only [packWord, toNat_append_eq]
    simp
    omega
  refine ⟨?_, ?_, ?_, ?_⟩ <;> apply BitVec.eq_of_toNat_eq <;>
    simp only [fieldOPC, fieldRSV, fieldA, fieldB, BitVec.extractLsb'_toNat, hw, Nat.shiftRight_eq_div_pow] <;>
    simp <;> omega

/-- A word whose RSV field is 0 is packed from its other three fields. -/
theorem packWord_of_fields {w : Word} (h : fieldRSV w = 0) : packWord (fieldOPC w) (fieldA w) (fieldB w) = w := by
  apply BitVec.eq_of_toNat_eq
  have hr : (fieldRSV w).toNat = 0 := by rw [h]; rfl
  have hw := w.isLt
  simp only [packWord, toNat_append_eq, fieldOPC, fieldRSV, fieldA, fieldB, BitVec.extractLsb'_toNat,
    Nat.shiftRight_eq_div_pow] at *
  simp at *
  omega

end Sys2Proof

namespace Sys2Proof.Laws.EncodedFields

/-- The opcode of R82. -/
def opcode : Instr → BitVec 4
  | .add _ _ => 0x1
  | .mul _ _ => 0x2
  | .div _ _ => 0x3
  | .log _ => 0x4
  | .exp _ => 0x5
  | .eval _ _ => 0x6
  | .interp _ => 0x7

/-- The encoder writes the command's opcode, and 0 into RSV. -/
def Statement (i : Instr) : Prop := fieldOPC (encode i) = opcode i ∧ fieldRSV (encode i) = 0

theorem add (a b : Byte) : Statement (.add a b) := ⟨(packWord_fields _ _ _).1, (packWord_fields _ _ _).2.1⟩

theorem mul (a b : Byte) : Statement (.mul a b) := ⟨(packWord_fields _ _ _).1, (packWord_fields _ _ _).2.1⟩

theorem div (a b : Byte) : Statement (.div a b) := ⟨(packWord_fields _ _ _).1, (packWord_fields _ _ _).2.1⟩

theorem log (a : Byte) : Statement (.log a) := ⟨(packWord_fields _ _ _).1, (packWord_fields _ _ _).2.1⟩

theorem exp (i : Nat) : Statement (.exp i) := ⟨(packWord_fields _ _ _).1, (packWord_fields _ _ _).2.1⟩

theorem eval (x : Byte) (d : Nat) : Statement (.eval x d) := ⟨(packWord_fields _ _ _).1, (packWord_fields _ _ _).2.1⟩

theorem interp (m : Nat) : Statement (.interp m) := ⟨(packWord_fields _ _ _).1, (packWord_fields _ _ _).2.1⟩

end Sys2Proof.Laws.EncodedFields
end

