-- ==== Sys2Proof/Tests/Slice0.lean ====
section
/-! SUPPORT. Tests of the model against the spec's own words and vectors (30_encoding.md R81, R89; 95_test_vectors.md),
and for every statement with hypotheses a state and operands that meet them together. -/

namespace Sys2Proof.Tests

open Sys2Proof.Machine

/-! ## Well-formedness: an ill-formed term for each check (R83, R89) -/

theorem test_exp_index_range : (Instr.exp 256).wellFormed = false ∧ (Instr.exp 255).wellFormed = true := by decide

theorem test_eval_degree_range : (Instr.eval 3 256).wellFormed = false ∧ (Instr.eval 3 255).wellFormed = true := by decide

theorem test_interp_count_low : (Instr.interp 0).wellFormed = false ∧ (Instr.interp 1).wellFormed = true := by decide

theorem test_interp_count_high : (Instr.interp 257).wellFormed = false ∧ (Instr.interp 256).wellFormed = true := by decide

theorem test_assemble_refuses_range : assemble (.interp 257) = none ∧ assemble (.interp 3) = some 0x70000002 := by decide

/-! ## Decoding: words written out from the patterns of R113 to R117, R143, R147 -/

theorem test_decode_add : decode 0b00010000000000000000111111110000 = .ok (.add 0x0F 0xF0) := by rfl

theorem test_decode_mul : decode 0b00100000000000000101011110000011 = .ok (.mul 0x57 0x83) := by rfl

theorem test_decode_div : decode 0b00110000000000001100000110000011 = .ok (.div 0xC1 0x83) := by rfl

theorem test_decode_log : decode 0b01000000000000000101001100000000 = .ok (.log 0x53) := by rfl

theorem test_decode_exp : decode 0b01010000000000000001100100000000 = .ok (.exp 0x19) := by rfl

theorem test_decode_eval : decode 0b01100000000000000000001100000010 = .ok (.eval 3 2) := by rfl

theorem test_decode_interp : decode 0b01110000000000000000000011111111 = .ok (.interp 256) := by rfl

/-- 95_test_vectors.md L2.8: the reserved field comes first, then the opcode, then the unused field. -/
theorem test_decode_rejects :
    decode 0x00000000 = .error .reservedOpcode ∧ decode 0x80000000 = .error .reservedOpcode ∧
    decode 0xF0001234 = .error .reservedOpcode ∧ decode 0x10010000 = .error .reservedField ∧
    decode 0x40010000 = .error .reservedField ∧ decode 0x5000FF01 = .error .unusedField ∧
    decode 0x70000100 = .error .unusedField := by
  refine ⟨?_, ?_, ?_, ?_, ?_, ?_, ?_⟩ <;> rfl

/-- The example words of R89 and a pseudo-command of R90. -/
theorem test_encode_examples :
    encode (.mul 0x57 0x83) = 0x20005783 ∧ encode (.eval 3 2) = 0x60000302 ∧ encode (.interp 3) = 0x70000002 ∧
    encode (Pseudo.inv 0x53).expand = 0x30000153 := by decide

/-! ## One step each: 95_test_vectors.md L2 -/

/-- RESULT and STATUS after a step, none where it stops. -/
def resultStatus : Host.Outcome State Fault Refusal → Option (Byte × Word)
  | .next t => some (t.rval, t.statusWord)
  | .fault _ => none
  | .refused _ => none

/-- The state of the L2.6 and L2.7 vectors: COEF[0..2] = (2A, 17, 9A), POINT[0..2] = (1, A7), (3, D7), (5, 98). -/
def loaded : State :=
  { State.reset with
    rval := 0x77,
    mem := { coef := [(0, 0x2A), (1, 0x17), (2, 0x9A)], point := [(0, (1, 0xA7)), (1, (3, 0xD7)), (2, (5, 0x98))] } }

/-- The engine's step on a command word that the host has just issued. -/
def runWord (s : State) (w : Nat) : Option (Byte × Word) := resultStatus (step (s.withFetchWord 32 w))

theorem test_add : runWord .reset 0x1000A53C = some (0x99, 0x002) := by decide +kernel

theorem test_mul_wraps_index : runWord .reset 0x200053CA = some (0x01, 0x002) := by decide +kernel

theorem test_mul_zero_operand : runWord .reset 0x200000FF = some (0x00, 0x002) := by decide +kernel

theorem test_div_wraps_index : runWord .reset 0x30000280 = some (0x1D, 0x002) := by decide +kernel

theorem test_div_zero_by_zero : runWord loaded 0x30000000 = some (0x77, 0x106) := by decide +kernel

theorem test_log : runWord .reset 0x4000F600 = some (0xFE, 0x002) := by decide +kernel

theorem test_log_of_zero : runWord loaded 0x40000000 = some (0x77, 0x306) := by decide +kernel

theorem test_exp_last : runWord .reset 0x5000FE00 = some (0xF6, 0x002) := by decide +kernel

theorem test_exp_out_of_range : runWord loaded 0x5000FF00 = some (0x77, 0x406) := by decide +kernel

theorem test_eval : runWord loaded 0x60000302 = some (0xD7, 0x002) := by decide +kernel

theorem test_eval_unwritten : runWord loaded 0x60000303 = none := by decide +kernel

theorem test_interp : runWord loaded 0x70000002 = some (0x2A, 0x002) := by decide +kernel

theorem test_interp_too_few_points : runWord loaded 0x70000001 = some (0x9F, 0x002) := by decide +kernel

/-- L2.8: the reserved field is reported before the zero divisor. -/
theorem test_illegal_first : runWord loaded 0x3FFF0000 = some (0x77, 0x506) := by decide +kernel

/-- L2.7: two points with equal x and equal y. -/
theorem test_duplicate :
    runWord { loaded with mem := { coef := [], point := [(0, (7, 1)), (1, (7, 1))] } } 0x70000001 = some (0x77, 0x206) := by
  decide +kernel

/-! ## The port: 95_test_vectors.md L2.9 and P5 -/

/-- The first host step of a program, from the state s. -/
def hostTurn (s : State) (st : HostStmt) : Host.Outcome State Fault Refusal := step { s with host := [st], turns := [.host] }

/-- A host's read at GF_BASE + off is the port's read at off, for every base. -/
theorem hostTurn_read {s : State} (hf : s.faulted = false) (off : Offset) (size : Nat) :
    hostTurn s (.read (busAddress off) size) =
      hostRead off size { s with host := [.read (busAddress off) size], turns := [] } := by
  simp [hostTurn, step, hostStep, hf]

/-- A host's write at GF_BASE + off is the port's write at off, for every base. -/
theorem hostTurn_write {s : State} (hf : s.faulted = false) (off : Offset) (size : Nat) (v : Word) :
    hostTurn s (.write (busAddress off) size v) =
      hostWrite off size v { s with host := [.write (busAddress off) size v], turns := [] } := by
  simp [hostTurn, step, hostStep, hf]

/-- The response and the fault mark after a step. -/
def respOf : Host.Outcome State Fault Refusal → Option (Option BusResp × Bool)
  | .next t => some (t.resp, t.faulted)
  | .fault _ => none
  | .refused _ => none

theorem test_point_write_ignores_upper :
    hostTurn .reset (.write (busAddress 0x814) 4 0xABCD1234) =
      .next { State.reset with resp := some .writeOkay, mem := { coef := [], point := [(5, (0x12, 0x34))] } } :=
  hostTurn_write rfl _ _ _

theorem test_setp_packs_point : HostStmt.setp 1 3 0xD7 = .write (busAddress 0x804) 4 0x000003D7 := rfl

theorem test_point_read : respOf (hostTurn loaded (.read (busAddress 0x804) 4)) = some (some (.readOkay 0x000003D7), false) := by
  rw [hostTurn_read rfl]; rfl

theorem test_read_cmd_refused : respOf (hostTurn .reset (.read (busAddress 0x000) 4)) = some (some .busError, true) := by
  rw [hostTurn_read rfl]; rfl

theorem test_misaligned_write_refused : respOf (hostTurn .reset (.write (busAddress 0x402) 4 0x2A)) = some (some .busError, true) := by
  rw [hostTurn_write rfl]; rfl

theorem test_read_unwritten : respOf (hostTurn loaded (.read (busAddress 0x40C) 4)) = none := by
  rw [hostTurn_read rfl]; rfl

/-- P5, run B: the buffer write while the command is pending is refused, and COEF[0] stays. -/
theorem test_locked_while_busy :
    hostTurn (loaded.issue 0x60007700) (HostStmt.setc 0 0x00) =
      .next { loaded.issue 0x60007700 with resp := some .busError, faulted := true } :=
  hostTurn_write rfl 0x400 _ _

/-- R50: a write below GF_BASE does not reach the block. -/
theorem test_outside_window (h : 0 < Config.gfBase) :
    hostTurn loaded (.write (Config.gfBase - 1) 4 0) = .next { loaded with resp := none } := by
  have hw : windowOffset (Config.gfBase - 1) = none := if_neg (by omega)
  simp [hostTurn, step, hostStep, hostDo, hw, State.passBy, loaded, State.reset]

/-- R91 and R50: `SETP 512` is a write at GF_BASE + 0x1000, outside the window, and reaches no register of the block. -/
theorem test_setp_above_window :
    HostStmt.setp 512 1 2 = .write (Config.gfBase + 0x1000) 4 0x00000102 ∧
    hostTurn loaded (HostStmt.setp 512 1 2) = .next { loaded with resp := none } := by
  have hw := windowOffset_gfBase_add_eq_none (off := 0x800 + 4 * 512) (by omega)
  exact ⟨rfl, by simp [hostTurn, step, hostStep, hostDo, HostStmt.setp, HostStmt.wr, hw, State.passBy, loaded, State.reset]⟩

/-- R52: the lanes of a POINT word: PY below, PX above it. -/
theorem test_byte_lanes : windowByte 0x804 loaded = some 0xD7 ∧ windowByte 0x805 loaded = some 0x03 := by decide +kernel

/-! ## The host procedures: 95_test_vectors.md P6 -/

/-- The draws of P6. -/
def drawsP6 (i : Nat) : Byte := if i = 0 then 0xC4 else 0x01

theorem test_split :
    split 3 2 [0x53, 0x10] drawsP6 (Equiv.refl _) =
      .ok [⟨1, [0x97, 0x11]⟩, ⟨2, [0xC0, 0x12]⟩, ⟨3, [0x04, 0x13]⟩] := by rfl

/-- The same shares in another order (I19). -/
theorem test_split_other_order :
    split 3 2 [0x53, 0x10] drawsP6 (Equiv.swap 0 2) =
      .ok [⟨3, [0x04, 0x13]⟩, ⟨2, [0xC0, 0x12]⟩, ⟨1, [0x97, 0x11]⟩] := by rfl

theorem test_combine : combine [⟨2, [0xC0, 0x12]⟩, ⟨3, [0x04, 0x13]⟩] = .ok [0x53, 0x10] := by rfl

/-- P3, steps 9 to 11, as bus words. -/
theorem test_combine_script :
    combineScript [(1, 0xA7), (3, 0xD7)] =
      [.write (busAddress 0x800) 4 0x000001A7, .write (busAddress 0x804) 4 0x000003D7,
        .write (busAddress 0x000) 4 0x70000001, .wait, .read (busAddress 0x008) 4] := rfl

/-- P6, steps 1 and 2, as bus words. -/
theorem test_split_script :
    splitScript 1 [0x53, 0xC4] =
      [.write (busAddress 0x400) 4 0x53, .write (busAddress 0x404) 4 0xC4,
        .write (busAddress 0x000) 4 0x60000101, .wait, .read (busAddress 0x008) 4] := rfl

/-! ## Witnesses: the hypotheses of every statement can be met together -/

/-- A pending command, the engine's turn. -/
def pendingState (w : Word) : State := { loaded.issue w with turns := [.engine] }

/-- The host's turn, with one statement. -/
def hostState (s : State) (st : HostStmt) : State := { s with host := [st], turns := [.host] }

theorem witness_DecodeOfEncode : (Instr.interp 256).wellFormed = true := by decide

theorem witness_EncodeOfDecode : decode 0x700000FF = .ok (.interp 256) := by rfl

theorem witness_EveryWordIsCommandOrIllegal :
    (pendingState 0x60000302).pend = some 0x60000302 ∧ (pendingState 0x60000302).turns = .engine :: [] := ⟨rfl, rfl⟩

/-- One word for each reason. -/
theorem witness_IllegalWordsFail :
    (pendingState 0x10010000).pend = some 0x10010000 ∧ (pendingState 0x10010000).turns = .engine :: [] ∧
    IllegalWord 0x10010000 ∧ IllegalWord 0x00000000 ∧ IllegalWord 0x80000000 ∧ IllegalWord 0xF0000000 ∧
    IllegalWord 0x40000001 ∧ IllegalWord 0x500000FF ∧ IllegalWord 0x70000100 := by
  refine ⟨rfl, rfl, ?_, ?_, ?_, ?_, ?_, ?_, ?_⟩ <;> unfold IllegalWord <;> decide

theorem witness_StepRunsDecodedCommand :
    (pendingState 0x20005783).pend = some 0x20005783 ∧ decode 0x20005783 = .ok (.mul 0x57 0x83) ∧
    (pendingState 0x20005783).turns = .engine :: [] ∧ (loaded.issue 0x20005783).pend = some 0x20005783 ∧
    (loaded.issue 0x20005783).turns = [] := ⟨rfl, rfl, rfl, rfl, rfl⟩

theorem witness_StepStopsOnlyOnUnwritten :
    step (pendingState 0x600000FF) = .fault (.unwrittenCoef 3) ∧
    step (hostState loaded (.read (busAddress 0xBFC) 4)) = .fault (.unwrittenPoint 255) :=
  ⟨rfl, hostTurn_read rfl _ _⟩

/-- GENERATOR itself is a generator of order 255. -/
theorem witness_GeneratorDoesNotMatter :
    powerWalk 0x03 255 = 0x01 ∧ ∀ n, 0 < n → n < 255 → powerWalk 0x03 n ≠ 0x01 := by
  have h : ∀ i : Fin 255, i.val ≠ 0 → powerWalk 0x03 i.val ≠ 0x01 := by decide +kernel
  exact ⟨by decide +kernel, fun n h0 hn => h ⟨n, hn⟩ (Nat.ne_of_gt h0)⟩

theorem witness_DivCompletes : (0x01 : Byte) ≠ 0 ∧ (0xFF : Byte) ≠ 0 := by decide

theorem witness_LogCompletes : (0x01 : Byte) ≠ 0 ∧ (0xFF : Byte) ≠ 0 := by decide

theorem witness_ExpCompletes : 254 < 255 := by decide

/-- The polynomial of the L2.6 vectors. -/
def coefs (i : Nat) : Byte := [0x2A, 0x17, 0x9A].getD i 0

theorem witness_EvalCompletes : 2 ≤ 255 ∧ ∀ i, i ≤ 2 → loaded.mem.coef.read i = some (coefs i) := by decide

theorem witness_EvalCornerCases : 0 ≤ 255 ∧ ∀ i, i ≤ 0 → loaded.mem.coef.read i = some (coefs i) := by decide

/-- The points of the L2.7 vectors. -/
def pointX (i : Nat) : Byte := [1, 3, 5].getD i 0

/-- Their y-coordinates. -/
def pointY (i : Nat) : Byte := [0xA7, 0xD7, 0x98].getD i 0

theorem witness_InterpCompletes :
    1 ≤ 3 ∧ 3 ≤ 256 ∧ (∀ i, i < 3 → loaded.mem.point.read i = some (pointX i, pointY i)) ∧
    ∀ i, i < 3 → ∀ j, j < 3 → pointX i = pointX j → i = j := by decide

/-- Two points (7, 1) and (7, 2), and a point with x = 0 beside one with x = 9. -/
def twoPoints : State := { loaded with mem := { coef := [], point := [(0, (7, 1)), (1, (7, 2))] } }

theorem witness_InterpDuplicateFails :
    2 ≤ 256 ∧ (∀ i, i < 2 → twoPoints.mem.point.read i = some (7, BitVec.ofNat 8 (i + 1))) ∧
    ∃ i j, i < 2 ∧ j < 2 ∧ i ≠ j ∧ (7 : Byte) = 7 := by
  exact ⟨by decide, by decide, 0, 1, by decide⟩

/-- Two points (0, 2A), (1, A7). -/
def zeroPoint : State := { loaded with mem := { coef := [], point := [(0, (0, 0x2A)), (1, (1, 0xA7))] } }

theorem witness_InterpCornerCases :
    1 ≤ 2 ∧ 2 ≤ 256 ∧
    (∀ i, i < 2 → zeroPoint.mem.point.read i = some (BitVec.ofNat 8 i, [0x2A, 0xA7].getD i 0)) ∧
    (∀ i, i < 2 → ∀ j, j < 2 → BitVec.ofNat 8 i = BitVec.ofNat 8 j → i = j) ∧ BitVec.ofNat 8 0 = 0x00 := by decide

theorem witness_InterpReconstructs :
    1 ≤ 3 ∧ 3 ≤ 256 ∧ [0x2A, 0x17, (0x9A : Byte)] ≠ [] ∧ [0x2A, 0x17, (0x9A : Byte)].length ≤ 3 ∧
    (∀ i, i < 3 → ∀ j, j < 3 → pointX i = pointX j → i = j) ∧
    ∀ i, i < 3 → loaded.mem.point.read i = some (pointX i, polyEval [0x2A, 0x17, 0x9A] (pointX i)) := by decide +kernel

theorem witness_PointOrderDoesNotMatter : [((1 : Byte), (0xA7 : Byte)), (3, 0xD7)].Perm [(3, 0xD7), (1, 0xA7)] := by decide

theorem witness_UnwrittenOperandFaults :
    (255 ≤ 255 ∧ ∃ i, i ≤ 255 ∧ loaded.mem.coef.read i = none) ∧
    (1 ≤ 256 ∧ 256 ≤ 256 ∧ ∃ i, i < 256 ∧ loaded.mem.point.read i = none) :=
  ⟨⟨by decide, 3, by decide, rfl⟩, by decide, by decide, 255, by decide, rfl⟩

theorem witness_ReadyCommandsComplete :
    ((Instr.eval 3 2).wellFormed = true ∧ loaded.Ready (.eval 3 2)) ∧
    ((Instr.interp 3).wellFormed = true ∧ loaded.Ready (.interp 3)) :=
  ⟨⟨by decide, by show ∀ i, i ≤ 2 → _; decide⟩, by decide, by show ∀ i, i < 3 → _; decide⟩

theorem witness_InvolutionThroughCommands : (0xFF : Byte) ≠ 0 := by decide

theorem witness_CommandFrame :
    exec (.add 0x0F 0xF0) loaded = .next (loaded.afterSuccess 0xFF) ∧
    exec (.div 5 0) loaded = .next (loaded.afterError 1) ∧ 0x400 ≤ 0xBFF ∧ 0xBFF ≤ 0xBFF :=
  ⟨rfl, rfl, by decide, by decide⟩

theorem witness_ErrorsArePrecise :
    loaded.pend = none ∧
    step { loaded with pend := some 0x30000500, done := false, err := false, errcode := 0, turns := .engine :: [] } =
      .next (loaded.afterError 1) ∧
    (loaded.afterError 1).err = true := ⟨rfl, rfl, rfl⟩

theorem witness_ErrorCodesByOpcode :
    (pendingState 0x30000500).pend = some 0x30000500 ∧ (pendingState 0x30000500).turns = .engine :: [] ∧
    step (pendingState 0x30000500) = .next (State.afterError (loaded.issue 0x30000500) 1) ∧
    (State.afterError (loaded.issue 0x30000500) 1).err = true := ⟨rfl, rfl, rfl, rfl⟩

/-- EVAL of degree 1 in two states that differ in COEF[2], RESULT and the points. -/
theorem witness_ResultDependsOnOperandsOnly :
    ∃ s s' t : State, s.pend = some 0x60000301 ∧ s'.pend = some 0x60000301 ∧ s.turns = .engine :: [] ∧
      s'.turns = .engine :: [] ∧ (∀ i, i ≤ 1 → s.mem.coef.read i = s'.mem.coef.read i) ∧ s.mem ≠ s'.mem ∧
      step s = .next t :=
  ⟨pendingState 0x60000301,
    { pendingState 0x60000301 with rval := 0, mem := { coef := [(0, 0x2A), (1, 0x17)], point := [] } },
    State.afterSuccess (loaded.issue 0x60000301) 0x13, rfl, rfl, rfl, rfl, by decide, by decide, rfl⟩

/-- An idle and a busy state at the host's turn with a CMD write. -/
theorem witness_IssueIsAtomic :
    (hostState loaded (.write (busAddress 0x000) 4 0)).faulted = false ∧
    (hostState loaded (.write (busAddress 0x000) 4 0)).turns = .host :: [] ∧
    (hostState loaded (.write (busAddress 0x000) 4 0)).host = .write (busAddress 0x000) 4 0 :: [] ∧
    (hostState loaded (.write (busAddress 0x000) 4 0)).pend = none ∧
    (hostState (loaded.issue 0) (.write (busAddress 0x000) 4 0)).faulted = false ∧
    (hostState (loaded.issue 0) (.write (busAddress 0x000) 4 0)).pend ≠ none :=
  ⟨rfl, rfl, rfl, rfl, rfl, by simp [hostState]⟩

/-- The read clauses of BusErrorExactly at the edges of the map. -/
theorem witness_BusErrorExactly :
    (hostState loaded (.read (busAddress 0x000) 4)).faulted = false ∧ (hostState loaded (.read (busAddress 0x000) 4)).turns = .host :: [] ∧
    (hostState loaded (.read (busAddress 0x000) 4)).host = .read (busAddress 0x000) 4 :: [] ∧
    ReadRefused 0x000 4 ∧ ReadRefused 0x00C 4 ∧ ReadRefused 0x3FC 4 ∧ ReadRefused 0xC00 4 ∧ ReadRefused 0xFFC 4 ∧
    ReadRefused 0x402 4 ∧ ReadRefused 0x400 1 ∧ ¬ ReadRefused 0x004 4 ∧ ¬ ReadRefused 0x008 4 ∧
    ¬ ReadRefused 0x400 4 ∧ ¬ ReadRefused 0xBFC 4 ∧
    (loaded.mem.coef.read 255 = none ∧ (0x7FC : Offset).toNat = 0x400 + 4 * 255) ∧
    (loaded.mem.point.read 255 = none ∧ (0xBFC : Offset).toNat = 0x800 + 4 * 255) :=
  ⟨rfl, rfl, rfl, by decide, by decide, by decide, by decide, by decide, by decide, by decide, by decide, by decide,
    by decide, by decide, by decide, by decide⟩

/-- The write clauses of BusErrorExactly, idle and busy. -/
theorem witness_BusErrorExactly_writes :
    (hostState loaded (.write (busAddress 0x000) 4 0)).faulted = false ∧ (hostState loaded (.write (busAddress 0x000) 4 0)).turns = .host :: [] ∧
    (hostState loaded (.write (busAddress 0x000) 4 0)).host = .write (busAddress 0x000) 4 0 :: [] ∧
    WriteRefused loaded 0x004 4 ∧ WriteRefused loaded 0x008 4 ∧ ¬ WriteRefused loaded 0x000 4 ∧
    ¬ WriteRefused loaded 0x400 4 ∧ ¬ WriteRefused loaded 0xBFC 4 ∧
    WriteRefused (loaded.issue 0) 0x000 4 ∧ WriteRefused (loaded.issue 0) 0x400 4 ∧
    WriteRefused (loaded.issue 0) 0xBFC 4 :=
  ⟨rfl, rfl, rfl, by decide, by decide, by decide, by decide, by decide, by decide, by decide, by decide⟩

/-- One address below the window where the base leaves room, and the first one above it. -/
theorem witness_AccessOutsideWindowPassesBy :
    (hostState loaded (.read (Config.gfBase + 0x1000) 4)).faulted = false ∧
    (hostState loaded (.read (Config.gfBase + 0x1000) 4)).turns = .host :: [] ∧
    Config.gfBase + 0x1000 ≤ Config.gfBase + 0x1000 ∧
    (hostState loaded (.read (Config.gfBase + 0x1000) 4)).host = .read (Config.gfBase + 0x1000) 4 :: [] ∧
    (hostState loaded (.write (Config.gfBase + 0x1000) 8 0)).host = .write (Config.gfBase + 0x1000) 8 0 :: [] :=
  ⟨rfl, rfl, Nat.le_refl _, rfl, rfl⟩

/-- Each clause of ReadsReturnContents at the edges of its range, written and unwritten. -/
theorem witness_ReadsReturnContents :
    (hostState loaded (.read (busAddress 0x7FC) 4)).faulted = false ∧
    (hostState loaded (.read (busAddress 0x7FC) 4)).turns = .host :: [] ∧
    (hostState loaded (.read (busAddress 0x7FC) 4)).host = .read (busAddress 0x7FC) 4 :: [] ∧
    (0x004 : Offset).toNat = 0x004 ∧ (0x008 : Offset).toNat = 0x008 ∧
    (0x400 : Offset).toNat = 0x400 + 4 * 0 ∧ (0x7FC : Offset).toNat = 0x400 + 4 * 255 ∧
    (0x800 : Offset).toNat = 0x800 + 4 * 0 ∧ (0xBFC : Offset).toNat = 0x800 + 4 * 255 ∧
    loaded.mem.coef.read 0 = some 0x2A ∧ loaded.mem.coef.read 255 = none ∧
    loaded.mem.point.read 0 = some (1, 0xA7) ∧ loaded.mem.point.read 255 = none :=
  ⟨rfl, rfl, rfl, by decide, by decide, by decide, by decide, by decide, by decide, rfl, rfl, rfl, rfl⟩

theorem witness_WritesStoreOneEntry :
    (hostState loaded (.write (busAddress 0x7FC) 4 1)).faulted = false ∧
    (hostState loaded (.write (busAddress 0x7FC) 4 1)).pend = none ∧
    (hostState loaded (.write (busAddress 0x7FC) 4 1)).turns = .host :: [] ∧
    (hostState loaded (.write (busAddress 0x7FC) 4 1)).host = .write (busAddress 0x7FC) 4 1 :: [] ∧ 255 < 256 ∧
    (0x7FC : Offset).toNat = 0x400 + 4 * 255 ∧ (0x800 : Offset).toNat = 0x800 + 4 * 0 :=
  ⟨rfl, rfl, rfl, rfl, by decide, by decide, by decide⟩

theorem witness_WaitPollsBusy :
    (hostState loaded .wait).faulted = false ∧ (hostState loaded .wait).turns = .host :: [] ∧
    (hostState loaded .wait).host = .wait :: [] ∧ (hostState loaded .wait).pend = none ∧
    (hostState (loaded.issue 0) .wait).pend ≠ none := by decide

theorem witness_ResetEventRestoresBlock :
    ({ loaded.issue 0 with turns := [.reset] } : State).turns = .reset :: [] := rfl

/-- The invariant holds where a command has failed, and the next step answers a state. -/
theorem witness_StepKeepsInvariant :
    (pendingState 0x30000500).Inv ∧
    step (pendingState 0x30000500) = .next (State.afterError (loaded.issue 0x30000500) 1) :=
  ⟨⟨⟨by decide, by decide, by decide, by decide⟩, by decide⟩, rfl⟩

/-- A run of one host access and one completion, which fails with LOG_OF_ZERO. -/
theorem witness_ReachableStatusInvariants :
    Host.Core.run core 2 { State.reset with host := [HostStmt.issue 0x40000000], turns := [] } =
      .next { State.reset with done := true, err := true, errcode := 3, resp := some .writeOkay } := by
  have h : step { State.reset with host := [HostStmt.issue 0x40000000], turns := [] } =
      .next { State.issue 0x40000000 State.reset with resp := some .writeOkay } := hostDo_write 0x000 _ _ _
  rw [run_of_next h]
  rfl

theorem witness_StatusChangesOnlyBy :
    step (pendingState 0x30000500) = .next (State.afterError (loaded.issue 0x30000500) 1) ∧
    ((State.afterError (loaded.issue 0x30000500) 1).done, (State.afterError (loaded.issue 0x30000500) 1).err,
      (State.afterError (loaded.issue 0x30000500) 1).errcode) ≠
      ((pendingState 0x30000500).done, (pendingState 0x30000500).err, (pendingState 0x30000500).errcode) :=
  ⟨rfl, by decide⟩

theorem witness_ResultWrittenOnlyBySuccess :
    step (pendingState 0x10000FF0) = .next (State.afterSuccess (loaded.issue 0x10000FF0) 0xFF) ∧
    (State.afterSuccess (loaded.issue 0x10000FF0) 0xFF).rval ≠ (pendingState 0x10000FF0).rval := ⟨rfl, by decide⟩

theorem witness_BuffersChangeOnlyByHostWrite :
    ∃ t, step (hostState loaded (HostStmt.setc 0 0x5C)) = .next t ∧
      t.mem ≠ (hostState loaded (HostStmt.setc 0 0x5C)).mem :=
  ⟨_, hostTurn_write rfl 0x400 _ _, by decide⟩

theorem witness_PendingCommandIsStable :
    (pendingState 0x10000FF0).pend = some 0x10000FF0 ∧ (pendingState 0x10000FF0).turns.head? ≠ some .reset ∧
    step (pendingState 0x10000FF0) = .next (State.afterSuccess (loaded.issue 0x10000FF0) 0xFF) := ⟨rfl, by decide, rfl⟩

theorem witness_FaultMarkStays :
    ({ loaded with faulted := true, host := [.wait] } : State).faulted = true ∧
    step { loaded with faulted := true, host := [.wait] } = .next { loaded with faulted := true, host := [.wait] } ∧
    ({ loaded with faulted := true, host := [.wait] } : State).turns.head? ≠ some .reset := ⟨rfl, rfl, by decide⟩

/-- With and without a reset in the schedule. -/
theorem witness_PendingCommandCompletes :
    (pendingState 0x600000FF).pend = some 0x600000FF ∧ Turn.reset ∉ (pendingState 0x600000FF).turns ∧
    ({ loaded.issue 0 with turns := [.reset] } : State).pend = some 0 := ⟨rfl, by decide, rfl⟩

/-- A command that succeeds, one that fails and an illegal word. -/
theorem witness_ResultIndependentOfLatency :
    loaded.pend = none ∧ loaded.faulted = false ∧ Turn.reset ∉ [Turn.host, Turn.host, Turn.engine] ∧
    execWord 0x10000FF0 loaded = .next (loaded.afterSuccess 0xFF) ∧
    execWord 0x30000500 loaded = .next (loaded.afterError 1) ∧
    execWord 0x00000000 loaded = .next (loaded.afterError 5) := ⟨rfl, rfl, by decide, rfl, rfl, rfl⟩

theorem witness_SplitPreconditions : (1 ≤ 1) ∧ (1 < 5 ∧ 2 < 5) ∧ (1 < 3 ∧ 3 ≤ 256 ∧ 255 < 256) ∧ (1 < 255 ∧ 255 ≤ 255) := by
  decide

theorem witness_CombinePreconditions :
    (∃ t ∈ [Share.mk 1 [9], Share.mk 2 [9, 9]], ∃ u ∈ [Share.mk 1 [9], Share.mk 2 [9, 9]], t.value.length ≠ u.value.length) ∧
    ([Share.mk 1 [9], Share.mk 1 [9]] ≠ [] ∧
      (∀ t ∈ [Share.mk 1 [9], Share.mk 1 [9]], ∀ u ∈ [Share.mk 1 [9], Share.mk 1 [9]], t.value.length = u.value.length) ∧
      ¬ ([Share.mk 1 [9], Share.mk 1 [9]].map Share.id).Nodup) := by decide

/-- The shares of P6, for SplitYieldsShares and SplitCombineRoundTrip. -/
theorem witness_SplitCombineRoundTrip :
    split 3 2 [0x53, 0x10] drawsP6 (Equiv.refl _) = .ok [⟨1, [0x97, 0x11]⟩, ⟨2, [0xC0, 0x12]⟩, ⟨3, [0x04, 0x13]⟩] ∧
    [Share.mk 3 [0x04, 0x13], ⟨1, [0x97, 0x11]⟩] ⊆ [⟨1, [0x97, 0x11]⟩, ⟨2, [0xC0, 0x12]⟩, ⟨3, [0x04, 0x13]⟩] ∧
    [Share.mk 3 [0x04, 0x13], ⟨1, [0x97, 0x11]⟩].Nodup ∧ 2 ≤ [Share.mk 3 [0x04, 0x13], ⟨1, [0x97, 0x11]⟩].length :=
  ⟨test_split, by decide, by decide, by decide⟩

theorem witness_CombineScriptRecoversByte :
    loaded.pend = none ∧ loaded.faulted = false ∧ [((4 : Byte), (0x15 : Byte))] ≠ [] ∧
    [((4 : Byte), (0x15 : Byte))].length ≤ 256 ∧ lagrange0 [(4, 0x15)] = .ok 0x15 ∧
    Turn.reset ∉ [Turn.host, Turn.host, Turn.engine] := by
  exact ⟨rfl, rfl, by decide, by decide, rfl, by decide⟩

theorem witness_SplitScriptEvaluates :
    loaded.pend = none ∧ loaded.faulted = false ∧ 1 ≤ 255 ∧ 255 ≤ 255 ∧ [(0x53 : Byte), 0xC4] ≠ [] ∧
    [(0x53 : Byte), 0xC4].length ≤ 256 ∧ Turn.reset ∉ [Turn.host, Turn.host, Turn.engine] ∧ 1 ≤ 1 ∧ 1 ≤ 255 := by decide

end Sys2Proof.Tests
end

section
/-! The port's writes, one lemma per answer, and the issue of a command (R35, R59). -/

namespace Sys2Proof.Machine

/-- At its turn an unmarked host that writes inside the window performs `MemWrite` at the port (R63). -/
theorem step_host_write {s : State} {off : Offset} {size : Nat} {v : Word} {ts : List Turn} {rest : List HostStmt}
    (hf : s.faulted = false) (ht : s.turns = .host :: ts) (hh : s.host = .write (busAddress off) size v :: rest) :
    step s = hostWrite off size v { s with turns := ts } := by
  have hstep : step s = hostStep { s with turns := ts } := by simp only [step, ht]
  rw [hstep, hostStep_cons (s := { s with turns := ts }) hf hh, hostDo_write]

/-- An accepted write is answered with OKAY. -/
theorem hostWrite_of_accepted {off : Offset} {size : Nat} {v : Word} {s t : State} (h : busWrite off size v s = some t) :
    hostWrite off size v s = .next (t.respond .writeOkay) := by
  rw [hostWrite, h]

/-- A refused write is answered with BUS_ERROR, and the block stays as it is (R207). -/
theorem hostWrite_of_refused {off : Offset} {size : Nat} {v : Word} {s : State} (h : busWrite off size v s = none) :
    hostWrite off size v s = .next (s.respond .busError) := by
  rw [hostWrite, h]

/-- While a command is pending the port refuses every write (R59). -/
theorem busWrite_of_pending {s : State} (hp : s.pend ≠ none) (off : Offset) (size : Nat) (v : Word) :
    busWrite off size v s = none := by
  cases h : busWrite off size v s with
  | none => rfl
  | some t =>
    obtain ⟨-, hidle, -⟩ := busWrite_cases h
    exact absurd hidle hp

/-- While nothing is pending a 4-byte write to CMD issues the word (R35). -/
theorem busWrite_cmd_of_idle {s : State} (hp : s.pend = none) (w : Word) : busWrite 0x000 4 w s = some (s.issue w) := by
  have haccess : wordAccess 0x000 4 = true := rfl
  have htarget : target 0x000 = .cmd := rfl
  have hbusy : s.busy = false := by simp [State.busy, hp]
  simp only [busWrite, haccess, htarget, hbusy, if_true, Bool.false_eq_true, if_false]

/-- Settles O36, by the two answers of the port to a write to CMD: it issues while idle and refuses while busy. -/
theorem issueIsAtomic : Obligations.IssueIsAtomic := by
  intro s w ts rest hf ht hh
  rw [step_host_write hf ht hh]
  constructor
  · intro hidle
    rw [hostWrite_of_accepted (busWrite_cmd_of_idle (s := { s with turns := ts }) hidle w)]
    simp [State.respond, State.issue, hh, hf]
  · intro hpending
    rw [hostWrite_of_refused (busWrite_of_pending (s := { s with turns := ts }) hpending _ _ _)]
    simp [State.respond, hh]

end Sys2Proof.Machine
end

section
/-! The decoder and the encoder undo each other on the legal words, and no encoded word is illegal by its bits
(30_encoding.md R81 to R87). -/

namespace Sys2Proof

/-- A word with RSV = 0 is packed from the opcode that its OPC field numbers and its two operand fields (R81). -/
theorem packWord_of_opcode {w : Word} {opc : BitVec 4} (hrsv : fieldRSV w = 0) (hopc : (fieldOPC w).toNat = opc.toNat) :
    packWord opc (fieldA w) (fieldB w) = w := by
  rw [← BitVec.eq_of_toNat_eq hopc, packWord_of_fields hrsv]

/-! ### Byte operands of the commands whose operands are numbers (R83) -/

theorem wellFormed_exp_toNat (a : Byte) : (Instr.exp a.toNat).wellFormed = true :=
  decide_eq_true (Nat.le_of_lt_succ a.isLt)

theorem wellFormed_eval_toNat (x b : Byte) : (Instr.eval x b.toNat).wellFormed = true :=
  decide_eq_true (Nat.le_of_lt_succ b.isLt)

theorem wellFormed_interp_toNat_succ (b : Byte) : (Instr.interp (b.toNat + 1)).wellFormed = true := by
  have hb := b.isLt
  simp only [Instr.wellFormed, Bool.and_eq_true, decide_eq_true_eq]
  omega

theorem encode_exp_toNat (a : Byte) : encode (.exp a.toNat) = packWord 0x5 a 0 := by simp [encode]

theorem encode_eval_toNat (x b : Byte) : encode (.eval x b.toNat) = packWord 0x6 x b := by simp [encode]

theorem encode_interp_toNat_succ (b : Byte) : encode (.interp (b.toNat + 1)) = packWord 0x7 0 b := by simp [encode]

/-! ### The two round trips -/

/-- The check of an unused field lets a command through only where the field is 0 (R85). -/
theorem unusedCheck_eq_ok {field : Byte} {i j : Instr}
    (h : (if field ≠ 0 then Except.error Reject.unusedField else Except.ok i) = Except.ok j) : field = 0 ∧ i = j := by
  split at h
  case isTrue => cases h
  case isFalse hzero => cases h; exact ⟨not_not.1 hzero, rfl⟩

/-- The decoder reads back what the encoder writes for a well-formed command (R81 to R83). -/
theorem decode_encode {i : Instr} (hi : i.wellFormed = true) : decode (encode i) = .ok i := by
  cases i with
  | add a b => simp [decode, encode, packWord_fields]
  | mul a b => simp [decode, encode, packWord_fields]
  | div a b => simp [decode, encode, packWord_fields]
  | log a => simp [decode, encode, packWord_fields]
  | exp n =>
    have hn : n < 256 := Nat.lt_succ_of_le (of_decide_eq_true hi)
    simp [decode, encode, packWord_fields, Nat.mod_eq_of_lt hn]
  | eval x d =>
    have hd : d < 256 := Nat.lt_succ_of_le (of_decide_eq_true hi)
    simp [decode, encode, packWord_fields, Nat.mod_eq_of_lt hd]
  | interp m =>
    obtain ⟨hlow, hhigh⟩ : 1 ≤ m ∧ m ≤ 256 := by simpa [Instr.wellFormed] using hi
    have hm : m - 1 < 256 := by omega
    simp [decode, encode, packWord_fields, Nat.mod_eq_of_lt hm, Nat.sub_add_cancel hlow]

/-- A word that the decoder accepts is the encoding of the well-formed command it reads: the fields that the command
does not use are 0 (R85), and the others are its operands. -/
theorem encode_of_decode {w : Word} {i : Instr} (h : decode w = .ok i) : i.wellFormed = true ∧ encode i = w := by
  unfold decode at h
  split at h
  case isTrue => cases h
  case isFalse hrsv =>
    have hpack {opc : BitVec 4} := packWord_of_opcode (opc := opc) (not_not.1 hrsv)
    split at h
    case h_1 hopc => cases h; exact ⟨rfl, hpack hopc⟩
    case h_2 hopc => cases h; exact ⟨rfl, hpack hopc⟩
    case h_3 hopc => cases h; exact ⟨rfl, hpack hopc⟩
    case h_4 hopc =>
      obtain ⟨hunused, rfl⟩ := unusedCheck_eq_ok h
      exact ⟨rfl, by rw [encode, ← hunused]; exact hpack hopc⟩
    case h_5 hopc =>
      obtain ⟨hunused, rfl⟩ := unusedCheck_eq_ok h
      exact ⟨wellFormed_exp_toNat _, by rw [encode_exp_toNat, ← hunused]; exact hpack hopc⟩
    case h_6 hopc =>
      cases h
      exact ⟨wellFormed_eval_toNat _ _, by rw [encode_eval_toNat]; exact hpack hopc⟩
    case h_7 hopc =>
      obtain ⟨hunused, rfl⟩ := unusedCheck_eq_ok h
      exact ⟨wellFormed_interp_toNat_succ _, by rw [encode_interp_toNat_succ, ← hunused]; exact hpack hopc⟩
    case h_8 => cases h

end Sys2Proof

namespace Sys2Proof.Machine

/-- The illegal words of the statements, by the decoder's fields (R81). -/
theorem illegalWord_iff_fields (w : Word) :
    IllegalWord w ↔ fieldRSV w ≠ 0 ∨ (fieldOPC w = 0 ∨ 8 ≤ (fieldOPC w).toNat) ∨
      ((fieldOPC w = 4 ∨ fieldOPC w = 5) ∧ fieldB w ≠ 0) ∨ (fieldOPC w = 7 ∧ fieldA w ≠ 0) := Iff.rfl

/-- Which packed words are illegal: RSV is 0, so the opcode or an unused field is at fault (R85, R86). -/
theorem illegalWord_packWord (opc : BitVec 4) (a b : Byte) :
    IllegalWord (packWord opc a b) ↔
      (opc = 0 ∨ 8 ≤ opc.toNat) ∨ ((opc = 4 ∨ opc = 5) ∧ b ≠ 0) ∨ (opc = 7 ∧ a ≠ 0) := by
  simp [illegalWord_iff_fields, packWord_fields]

/-- The encoder writes no illegal word. -/
theorem not_illegalWord_encode (i : Instr) : ¬ IllegalWord (encode i) := by
  cases i <;> simp [encode, illegalWord_packWord]

/-- The decoder rejects every word that is illegal by its bits. -/
theorem decode_of_illegalWord {w : Word} (hw : IllegalWord w) : ∃ e, decode w = .error e := by
  cases h : decode w with
  | ok i =>
    obtain ⟨-, rfl⟩ := encode_of_decode h
    exact absurd hw (not_illegalWord_encode i)
  | error e => exact ⟨e, rfl⟩

end Sys2Proof.Machine
end

section
/-! The engine's completion of a pending word: the decoded command, or ILLEGAL_COMMAND (30_encoding.md R87, R88). -/

namespace Sys2Proof.Machine

section

variable {s : State} {w : Word} {ts : List Turn}

/-- At its turn the engine completes the pending word (R36). -/
theorem step_engine_pending (hp : s.pend = some w) (ht : s.turns = .engine :: ts) :
    step s = execWord w { s with turns := ts } := by
  simp only [step, ht, engineStep, hp]

theorem execWord_of_decode_ok {i : Instr} (h : decode w = .ok i) : execWord w s = exec i s := by
  rw [execWord, h]

/-- Whatever the reason of the rejection, the completion is the error entry with code 5 (R84 to R86, R200). -/
theorem execWord_of_decode_error {e : Reject} (h : decode w = .error e) : execWord w s = .next (s.afterError 5) := by
  rw [execWord, h]
  exact finish_error s .illegalCommand

end

/-- Settles O5: the engine executes the command that the decoder reads, and a word that the decoder rejects encodes no
well-formed command, since the decoder would read it back. -/
theorem everyWordIsCommandOrIllegal : Obligations.EveryWordIsCommandOrIllegal := by
  intro s w ts hp ht
  rw [step_engine_pending hp ht]
  cases h : decode w with
  | ok i =>
    obtain ⟨hwf, henc⟩ := encode_of_decode h
    exact .inl ⟨i, hwf, henc, execWord_of_decode_ok h⟩
  | error e =>
    refine .inr ⟨fun i hwf henc => ?_, execWord_of_decode_error h⟩
    rw [← henc, decode_encode hwf] at h
    cases h

/-- Settles O6: the decoder rejects a word that is illegal by its bits, whatever it would read otherwise. -/
theorem illegalWordsFail : Obligations.IllegalWordsFail := by
  intro s w ts hp ht hw
  obtain ⟨e, h⟩ := decode_of_illegalWord hw
  rw [step_engine_pending hp ht, execWord_of_decode_error h]

end Sys2Proof.Machine
end

section
/-! The EXP table against the walk of R101, and its cyclic reading (40_field_arithmetic.md R101, R104, R106). -/

namespace Sys2Proof.Machine

/-- One step of the walk from any EXP entry gives the next one, and entry 254 is followed by entry 0: the index adds
modulo 255. This is the one check of the listed bytes of R104. -/
theorem expRom_add_one : ∀ i : Fin 255, expRom (i + 1) = pmul (expRom i) 0x03 := by decide +kernel

/-- The table read of R106 reads the entry at an index below 255. -/
@[simp] theorem expMod_val (i : Fin 255) : expMod i.val = expRom i :=
  congrArg expRom (Fin.ext (Nat.mod_eq_of_lt i.isLt))

/-- Reading one index further is one step of the walk, across the wrap too: n + 1 and n modulo 255, plus 1, name the
same entry. -/
theorem expMod_succ (n : Nat) : expMod (n + 1) = pmul (expMod n) 0x03 := by
  rw [expMod, expMod, ← expRom_add_one]
  exact congrArg expRom (Fin.ext (by simp [Fin.val_add]))

/-- The table read of R106 is the walk of R101, however far it goes. -/
theorem powerWalk_generator (n : Nat) : powerWalk 0x03 n = expMod n := by
  induction n with
  | zero => rfl
  | succ n ih => rw [powerWalk_succ, ih, expMod_succ]

/-- Settles O10, by the reading of the walk as the table read modulo 255. -/
theorem expTableIsTheWalk : Obligations.ExpTableIsTheWalk :=
  ⟨fun i => by rw [powerWalk_generator, expMod_val], powerWalk_generator 255⟩

end Sys2Proof.Machine
end

section
/-! The preconditions of the host procedures, one lemma per outcome of the check (42_host_procedures.md R172, R175). -/

namespace Sys2Proof.Machine

/-! ### split (R172) -/

section

variable {n k : Nat} {secret : List Byte} {rng : Nat → Byte} {order : Equiv.Perm (Fin n)}

theorem splitCheck_of_le_one (hk : k ≤ 1) : splitCheck n k = .error .invalidThreshold := if_pos hk

theorem splitCheck_of_lt (hk : 1 < k) (hn : n < k) : splitCheck n k = .error .insufficientShareCount := by
  rw [splitCheck, if_neg (Nat.not_le.2 hk), if_pos hn]

/-- Past the threshold and the share count, only the bound of 255 ids is left to check. -/
theorem splitCheck_of_ge (hk : 1 < k) (hn : k ≤ n) :
    splitCheck n k = if 255 < n then .error .invalidShareCount else .ok () := by
  rw [splitCheck, if_neg (Nat.not_le.2 hk), if_neg (Nat.not_lt.2 hn)]

theorem split_of_check_error {e : FacadeError} (h : splitCheck n k = .error e) :
    split n k secret rng order = .error e := by
  rw [split, h]

theorem split_of_check_ok (h : splitCheck n k = .ok ()) :
    split n k secret rng order = .ok ((List.finRange n).map (fun j => shareOf k secret rng ((order j).val + 1))) := by
  rw [split, h]

end

/-- Settles O53: split answers what its check of n and k answers, and yields its shares where the check passes. -/
theorem splitPreconditions : Obligations.SplitPreconditions := by
  intro n k secret rng order
  refine ⟨fun hk => ?_, fun hk hn => ?_, fun hk hn hmax => ?_, fun hk hn hmax => ?_⟩
  · exact split_of_check_error (splitCheck_of_le_one hk)
  · exact split_of_check_error (splitCheck_of_lt hk hn)
  · exact split_of_check_error ((splitCheck_of_ge hk hn).trans (if_pos hmax))
  · exact ⟨_, split_of_check_ok ((splitCheck_of_ge hk hn).trans (if_neg (Nat.not_lt.2 hmax)))⟩

/-! ### combine (R175) -/

/-- The check compares every value with the first one: it finds a difference exactly if some two values differ in
length. -/
theorem any_length_ne_first_iff (s : Share) (r : List Share) :
    r.any (fun t => decide (t.value.length ≠ s.value.length)) = true ↔
      ∃ t ∈ s :: r, ∃ u ∈ s :: r, t.value.length ≠ u.value.length := by
  simp only [List.any_eq_true, decide_eq_true_eq]
  constructor
  · rintro ⟨t, ht, hne⟩
    exact ⟨t, .tail _ ht, s, .head _, hne⟩
  · contrapose!
    intro hfirst
    have hall : ∀ t ∈ s :: r, t.value.length = s.value.length := List.forall_mem_cons.2 ⟨rfl, hfirst⟩
    exact fun t ht u hu => (hall t ht).trans (hall u hu).symm

section

variable {shares : List Share}

theorem combineCheck_of_length_ne (h : ∃ t ∈ shares, ∃ u ∈ shares, t.value.length ≠ u.value.length) :
    combineCheck shares = .error .inconsistentShareLength := by
  cases shares with
  | nil => simp at h
  | cons s r => rw [combineCheck, if_pos ((any_length_ne_first_iff s r).2 h)]

/-- Shares whose values all have one length pass or fail the check by their ids alone. -/
theorem combineCheck_of_length_eq (hne : shares ≠ [])
    (h : ∀ t ∈ shares, ∀ u ∈ shares, t.value.length = u.value.length) :
    combineCheck shares = if (shares.map Share.id).Nodup then .ok () else .error .duplicateCoordinate := by
  cases shares with
  | nil => exact absurd rfl hne
  | cons s r =>
    have hsame : ¬ ∃ t ∈ s :: r, ∃ u ∈ s :: r, t.value.length ≠ u.value.length :=
      fun ⟨t, ht, u, hu, hdiff⟩ => hdiff (h t ht u hu)
    rw [combineCheck, if_neg (mt (any_length_ne_first_iff s r).1 hsame)]

theorem combine_of_check_error {e : FacadeError} (h : combineCheck shares = .error e) :
    combine shares = .error e := by
  rw [combine, h]

end

/-- Settles O55: combine answers the error of its check, which sees any two values of different lengths and, past
these, any repeated id. -/
theorem combinePreconditions : Obligations.CombinePreconditions := by
  refine ⟨combine_of_check_error rfl, fun shares => ⟨fun hdiff => ?_, fun hne hsame hrepeat => ?_⟩⟩
  · exact combine_of_check_error (combineCheck_of_length_ne hdiff)
  · exact combine_of_check_error ((combineCheck_of_length_eq hne hsame).trans (if_neg hrepeat))

end Sys2Proof.Machine
end

section
/-! The error entry is all that a failed command leaves (60_exceptions.md R203, R204). -/

namespace Sys2Proof.Machine

/-- The engine's turn that completes a pending command ends with ERR set only by the error entry (R36, R203). -/
theorem step_engine_failed {s t : State} {w : Word} {ts : List Turn} (hp : s.pend = some w)
    (ht : s.turns = .engine :: ts) (h : step s = .next t) (herr : t.err = true) :
    t = State.afterError { s with turns := ts } t.errcode := by
  have hengine : step s = engineStep { s with turns := ts } := by simp only [step, ht]
  obtain ⟨hidle, -⟩ | ⟨-, ⟨v, rfl⟩ | ⟨c, rfl⟩⟩ := engineStep_next (hengine ▸ h)
  · simp [hp] at hidle
  · simp at herr
  · rfl

/-- Over an idle block the error entry replaces all that the issue wrote: PEND is empty again, and DONE, ERR and ERRCODE
are its own. -/
theorem afterError_issue_of_idle {s : State} (hidle : s.pend = none) (w : Word) (code : BitVec 4) :
    (s.issue w).afterError code = { s with done := true, err := true, errcode := code } := by
  simp [State.issue, State.afterError, hidle]

/-- Settles O32: the completion that sets ERR is the error entry, and it undoes the issue but for STATUS. -/
theorem errorsArePrecise : Obligations.ErrorsArePrecise := by
  intro s t w ts hidle hstep herr
  calc t = (State.issue w { s with turns := ts }).afterError t.errcode :=
        step_engine_failed (s := { s.issue w with turns := .engine :: ts }) rfl rfl hstep herr
    _ = { s with done := true, err := true, errcode := t.errcode, turns := ts } :=
      afterError_issue_of_idle (s := { s with turns := ts }) hidle w _

end Sys2Proof.Machine
end

section
/-! The decoder word by word: the two round trips as the statements make them, and which words it rejects for which reason
(30_encoding.md R81 to R89, 60_exceptions.md R202). -/

namespace Sys2Proof.Machine

/-- Settles O1: the decoder reads back what the encoder writes. -/
theorem decodeOfEncode : Obligations.DecodeOfEncode := fun _ => decode_encode

/-- Settles O2: the fields that the decoder does not read are 0, and it reads all the others. -/
theorem encodeOfDecode : Obligations.EncodeOfDecode := fun _ _ => encode_of_decode

/-- Settles O4, by the encodings of the seven commands, which the decoder reads back. -/
theorem exampleWordsDecode : Obligations.ExampleWordsDecode :=
  ⟨decode_encode (i := .mul 0x57 0x83) rfl, decode_encode (i := .div 0xC1 0x83) rfl,
    decode_encode (i := .log 0x53) rfl, decode_encode (i := .exp 0x19) rfl, decode_encode (i := .eval 3 2) rfl,
    decode_encode (i := .interp 3) rfl, decode_encode (i := .add 0x0F 0xF0) rfl⟩

/-- An unused field of the word is not 0 (R85), by the decoder's fields. -/
abbrev UnusedFieldSet (w : Word) : Prop :=
  ((fieldOPC w = 4 ∨ fieldOPC w = 5) ∧ fieldB w ≠ 0) ∨ (fieldOPC w = 7 ∧ fieldA w ≠ 0)

/-- The opcode is none of R82. -/
abbrev OpcodeReserved (w : Word) : Prop := fieldOPC w = 0 ∨ 8 ≤ (fieldOPC w).toNat

section

variable {w : Word}

theorem decode_of_reservedField (h : fieldRSV w ≠ 0) : decode w = .error .reservedField := if_pos h

/-- A reserved opcode is none of the seven that the decoder tells apart. -/
theorem decode_of_reservedOpcode (hrsv : fieldRSV w = 0) (h : OpcodeReserved w) :
    decode w = .error .reservedOpcode := by
  have hopc : (fieldOPC w).toNat = 0 ∨ 8 ≤ (fieldOPC w).toNat := h.imp_left (congrArg BitVec.toNat)
  rw [decode, if_neg (not_not.2 hrsv)]
  split
  case h_8 => rfl
  all_goals omega

theorem decode_of_unusedField (hrsv : fieldRSV w = 0) (h : UnusedFieldSet w) : decode w = .error .unusedField := by
  rw [decode, if_neg (not_not.2 hrsv)]
  obtain ⟨hopc | hopc, hb⟩ | ⟨hopc, ha⟩ := h
  · rw [hopc]; exact if_pos hb
  · rw [hopc]; exact if_pos hb
  · rw [hopc]; exact if_pos ha

/-- A word that is not illegal by its bits is accepted: past the checks each of the seven opcodes is a command. -/
theorem decode_of_not_illegalWord (h : ¬ IllegalWord w) : ∃ i, decode w = .ok i := by
  simp only [illegalWord_iff_fields, not_or, not_and, ne_eq, not_not] at h
  obtain ⟨hrsv, ⟨hzero, hhigh⟩, hunusedB, hunusedA⟩ := h
  have hopc {k : BitVec 4} (hk : (fieldOPC w).toNat = k.toNat) : fieldOPC w = k := BitVec.eq_of_toNat_eq hk
  rw [decode, if_neg (not_not.2 hrsv)]
  split
  case h_1 => exact ⟨_, rfl⟩
  case h_2 => exact ⟨_, rfl⟩
  case h_3 => exact ⟨_, rfl⟩
  case h_4 hk => exact ⟨_, if_neg (not_not.2 (hunusedB (.inl (hopc hk))))⟩
  case h_5 hk => exact ⟨_, if_neg (not_not.2 (hunusedB (.inr (hopc hk))))⟩
  case h_6 => exact ⟨_, rfl⟩
  case h_7 hk => exact ⟨_, if_neg (not_not.2 (hunusedA (hopc hk)))⟩
  case h_8 h1 h2 h3 h4 h5 h6 h7 =>
    have h0 : (fieldOPC w).toNat = 0 → False := fun hk => hzero (hopc (k := 0) hk)
    simp only [imp_false] at h0 h1 h2 h3 h4 h5 h6 h7
    omega

/-- A reserved opcode has no field of a command (R202: the two reasons exclude each other). -/
theorem not_unusedFieldSet_of_reserved (h : OpcodeReserved w) : ¬ UnusedFieldSet w := by
  rintro (⟨hopc | hopc, -⟩ | ⟨hopc, -⟩) <;> simp [OpcodeReserved, hopc] at h

end

/-- Settles O3: the words fall into four classes, and the decoder gives each its own answer. -/
theorem rejectsByPriority : Obligations.RejectsByPriority := by
  intro w
  change (_ ↔ fieldRSV w ≠ 0) ∧ (_ ↔ fieldRSV w = 0 ∧ OpcodeReserved w) ∧ (_ ↔ fieldRSV w = 0 ∧ UnusedFieldSet w)
  by_cases hrsv : fieldRSV w = 0
  case neg =>
    simp only [decode_of_reservedField hrsv, hrsv]
    simpa using hrsv
  by_cases hopc : OpcodeReserved w
  · simp only [decode_of_reservedOpcode hrsv hopc, hrsv, hopc, not_unusedFieldSet_of_reserved hopc]
    simp
  by_cases hunused : UnusedFieldSet w
  · simp only [decode_of_unusedField hrsv hunused, hrsv, hopc, hunused]
    simp
  · obtain ⟨i, hi⟩ := decode_of_not_illegalWord (w := w) fun h =>
      ((illegalWord_iff_fields w).1 h).elim (absurd hrsv) (·.elim hopc hunused)
    simp only [hi, hrsv, hopc, hunused]
    simp

end Sys2Proof.Machine
end

section
/-! What a step does, said once: it moves the state in one of ten ways, or it faults on an unwritten entry. The
properties of the whole machine are read off this list (10_state.md R25, R26, R35, R36; 60_exceptions.md R205, R206). -/

namespace Sys2Proof.Machine

/-! ### The engine, the host and the step each answer a state, or fault on an unwritten entry (R32) -/

/-- The fault names a buffer entry that exists and is unwritten. -/
def Fault.NamesUnwritten (f : Fault) (m : Memory) : Prop :=
  (∃ i, f = .unwrittenCoef i ∧ i < 256 ∧ m.coef.read i = none) ∨
    ∃ i, f = .unwrittenPoint i ∧ i < 256 ∧ m.point.read i = none

/-- The outcome is a next state, or a fault that names an unwritten entry. -/
def GoesOnOrUnwritten (m : Memory) (o : Host.Outcome State Fault Refusal) : Prop :=
  (∃ t, o = .next t) ∨ ∃ f, o = .fault f ∧ f.NamesUnwritten m

theorem GoesOnOrUnwritten.next (m : Memory) (t : State) : GoesOnOrUnwritten m (.next t) := .inl ⟨t, rfl⟩

theorem GoesOnOrUnwritten.finish (m : Memory) (r : Except ErrCode Byte) (s : State) :
    GoesOnOrUnwritten m (finish r s) := by
  cases r with
  | ok v => exact .next m _
  | error c => exact .next m _

/-- A command within its ranges reads only entries that exist (R83). -/
theorem exec_goesOnOrUnwritten {i : Instr} (hi : i.wellFormed = true) (s : State) :
    GoesOnOrUnwritten s.mem (exec i s) := by
  obtain ⟨r, h⟩ | ⟨k, hnone, h, x, d, rfl, hk⟩ | ⟨k, hnone, h, m, rfl, hk⟩ := exec_cases i s
  · exact h ▸ .finish s.mem r s
  · have hd : d ≤ 255 := of_decide_eq_true hi
    exact .inr ⟨_, h, .inl ⟨k, rfl, by omega, hnone⟩⟩
  · have hm : 1 ≤ m ∧ m ≤ 256 := by simpa [Instr.wellFormed] using hi
    exact .inr ⟨_, h, .inr ⟨k, rfl, by omega, hnone⟩⟩

theorem execWord_goesOnOrUnwritten (w : Word) (s : State) : GoesOnOrUnwritten s.mem (execWord w s) := by
  cases h : decode w with
  | ok i => rw [execWord_of_decode_ok h]; exact exec_goesOnOrUnwritten (encode_of_decode h).1 s
  | error e => rw [execWord_of_decode_error h]; exact .next _ _

theorem engineStep_goesOnOrUnwritten (s : State) : GoesOnOrUnwritten s.mem (engineStep s) := by
  unfold engineStep
  split
  · exact execWord_goesOnOrUnwritten _ s
  · exact .next _ _

theorem hostRead_goesOnOrUnwritten (off : Offset) (size : Nat) (s : State) :
    GoesOnOrUnwritten s.mem (hostRead off size s) := by
  unfold hostRead
  split
  case h_1 => exact .next _ _
  case h_2 f h =>
    refine .inr ⟨f, rfl, (busRead_fault h).imp ?_ ?_⟩
    · exact fun ⟨i, hi, hnone, hf⟩ => ⟨i, hf, hi, hnone⟩
    · exact fun ⟨i, hi, hnone, hf⟩ => ⟨i, hf, hi, hnone⟩

theorem hostWrite_goesOnOrUnwritten (off : Offset) (size : Nat) (v : Word) (s : State) :
    GoesOnOrUnwritten s.mem (hostWrite off size v s) := by
  unfold hostWrite
  split <;> exact .next _ _

theorem hostDo_goesOnOrUnwritten (st : HostStmt) (s : State) : GoesOnOrUnwritten s.mem (hostDo st s) := by
  unfold hostDo
  split
  case h_1 =>
    split
    · exact hostRead_goesOnOrUnwritten _ _ s
    · exact .next _ _
  case h_2 =>
    split
    · exact hostWrite_goesOnOrUnwritten _ _ _ s
    · exact .next _ _
  case h_3 => split <;> exact .next _ _

theorem hostStep_goesOnOrUnwritten (s : State) : GoesOnOrUnwritten s.mem (hostStep s) := by
  unfold hostStep
  split
  · exact .next _ _
  · split
    · exact .next _ _
    · exact hostDo_goesOnOrUnwritten _ s

theorem step_goesOnOrUnwritten (s : State) : GoesOnOrUnwritten s.mem (step s) := by
  obtain ⟨ts, -, h⟩ | ⟨ts, -, h⟩ | ⟨ts, -, h⟩ | ⟨-, -, h⟩ | ⟨-, -, h⟩ := step_cases s <;> rw [h]
  · exact engineStep_goesOnOrUnwritten { s with turns := ts }
  · exact hostStep_goesOnOrUnwritten { s with turns := ts }
  · exact .next _ _
  · exact engineStep_goesOnOrUnwritten s
  · exact hostStep_goesOnOrUnwritten s

/-- Settles O8: whoever moves, the step answers a state or faults on an unwritten entry. -/
theorem stepStopsOnlyOnUnwritten : Obligations.StepStopsOnlyOnUnwritten := by
  intro s
  obtain ⟨t, h⟩ | ⟨f, h, hf⟩ := step_goesOnOrUnwritten s
  · simp [h]
  · refine ⟨by simp [h], fun f' h' => ?_⟩
    cases h.symm.trans h'
    exact hf

/-! ### The ways a step moves the state -/

/-- s with the turn of the agent that moves taken off the schedule. -/
def State.endTurn (s : State) : State := { s with turns := s.turns.tail }

/-- Everything a step can do: the reset event (R231), a completion (R36), nothing, the host's access that the block only
answers (R58, R60), a poll of WAIT (R91), an access outside the window (R50), or an accepted write, which is an issue
(R35) or the store of one entry (R57) and is made while nothing is pending (R59). -/
inductive Moved (s : State) : State → Prop
  | reset (hturn : s.turns.head? = some .reset) : Moved s s.endTurn.resetEvent
  | success (hp : s.pend ≠ none) (hturn : s.turns.head? ≠ some .host) (v : Byte) : Moved s (s.endTurn.afterSuccess v)
  | failure (hp : s.pend ≠ none) (c : ErrCode) : Moved s (s.endTurn.afterError c.code)
  | idle : Moved s s.endTurn
  | respond (hf : s.faulted = false) (r : BusResp) : Moved s (s.endTurn.respond r)
  | poll (hf : s.faulted = false) (r : BusResp) : Moved s { s.endTurn with resp := some r }
  | passBy (hf : s.faulted = false) : Moved s s.endTurn.passBy
  | issue (hf : s.faulted = false) (hp : s.pend = none) (w : Word) : Moved s ((s.endTurn.issue w).respond .writeOkay)
  | setCoef (hf : s.faulted = false) (hp : s.pend = none) {off : Offset} {v : Word} {i : Nat}
      (hh : s.host.head? = some (.write (busAddress off) 4 v)) (htarget : target off = .coef i) (c : Byte) :
      Moved s ((s.endTurn.setCoef i c).respond .writeOkay)
  | setPoint (hf : s.faulted = false) (hp : s.pend = none) {off : Offset} {v : Word} {i : Nat}
      (hh : s.host.head? = some (.write (busAddress off) 4 v)) (htarget : target off = .point i) (x y : Byte) :
      Moved s ((s.endTurn.setPoint i x y).respond .writeOkay)

section

variable {s t : State}

@[simp] theorem State.endTurn_pend : s.endTurn.pend = s.pend := rfl
@[simp] theorem State.endTurn_done : s.endTurn.done = s.done := rfl
@[simp] theorem State.endTurn_err : s.endTurn.err = s.err := rfl
@[simp] theorem State.endTurn_errcode : s.endTurn.errcode = s.errcode := rfl
@[simp] theorem State.endTurn_rval : s.endTurn.rval = s.rval := rfl
@[simp] theorem State.endTurn_mem : s.endTurn.mem = s.mem := rfl
@[simp] theorem State.endTurn_host : s.endTurn.host = s.host := rfl
@[simp] theorem State.endTurn_turns : s.endTurn.turns = s.turns.tail := rfl
@[simp] theorem State.endTurn_resp : s.endTurn.resp = s.resp := rfl
@[simp] theorem State.endTurn_faulted : s.endTurn.faulted = s.faulted := rfl

theorem State.endTurn_of_cons {a : Turn} {ts : List Turn} (ht : s.turns = a :: ts) :
    s.endTurn = { s with turns := ts } := by
  simp [State.endTurn, ht]

theorem State.endTurn_of_nil (ht : s.turns = []) : s.endTurn = s := by
  cases s
  cases ht
  rfl

theorem moved_of_engineStep (hturn : s.turns.head? ≠ some .host) (h : engineStep s.endTurn = .next t) : Moved s t := by
  obtain ⟨-, rfl⟩ | ⟨hp, ⟨v, rfl⟩ | ⟨c, rfl⟩⟩ := engineStep_next h
  · exact .idle
  · exact .success (s := s) hp hturn v
  · exact .failure (s := s) hp c

theorem moved_of_hostStep (h : hostStep s.endTurn = .next t) : Moved s t := by
  obtain rfl | ⟨hf, st, rest, hh, ⟨r, rfl⟩ | rfl | ⟨w, -, rfl⟩ | ⟨off, size, v, u, rfl, hu, rfl⟩⟩ := hostStep_next h
  · exact .idle
  · exact .respond (s := s) hf r
  · exact .passBy (s := s) hf
  · exact .poll (s := s) hf _
  · have hhead (hsize : size = 4) : s.host.head? = some (.write (busAddress off) 4 v) := by
      rw [State.endTurn_host] at hh
      simp [hh, hsize]
    obtain ⟨hsize, hp, ⟨-, rfl⟩ | ⟨i, htarget, rfl⟩ | ⟨i, htarget, rfl⟩⟩ := busWrite_cases hu
    · exact .issue (s := s) hf hp v
    · exact .setCoef (s := s) hf hp (hhead hsize) htarget _
    · exact .setPoint (s := s) hf hp (hhead hsize) htarget _ _

/-- A step that answers a next state moves in one of the ways of `Moved`. -/
theorem step_moved (h : step s = .next t) : Moved s t := by
  obtain ⟨ts, ht, hs⟩ | ⟨ts, ht, hs⟩ | ⟨ts, ht, hs⟩ | ⟨ht, -, hs⟩ | ⟨ht, -, hs⟩ := step_cases s
  · rw [hs, ← State.endTurn_of_cons ht] at h
    exact moved_of_engineStep (by simp [ht]) h
  · rw [hs, ← State.endTurn_of_cons ht] at h
    exact moved_of_hostStep h
  · rw [hs, ← State.endTurn_of_cons ht] at h
    cases h
    exact .reset (by simp [ht])
  · rw [hs, ← State.endTurn_of_nil ht] at h
    refine moved_of_engineStep (by simp [ht]) ?_
    rwa [State.endTurn_of_nil ht] at h ⊢
  · rw [hs] at h
    exact moved_of_hostStep (by rwa [State.endTurn_of_nil ht])

end

/-! ### The invariant (R25) -/

theorem ErrCode.code_ne_zero (c : ErrCode) : c.code ≠ 0 := by cases c <;> decide

theorem ErrCode.code_toNat_le (c : ErrCode) : c.code.toNat ≤ 5 := by cases c <;> decide

section

variable {s t : State}

/-- The STATUS invariants speak of PEND, DONE, ERR and ERRCODE only. -/
theorem State.StatusInv.congr (h : s.StatusInv) (hp : t.pend = s.pend) (hd : t.done = s.done) (he : t.err = s.err)
    (hc : t.errcode = s.errcode) : t.StatusInv := by
  obtain ⟨hbusy, hiff, hdone, hle⟩ := h
  exact ⟨by rwa [hp, hd, he, hc], by rwa [he, hc], by rwa [he, hd], by rwa [hc]⟩

/-- STATUS with no error: it may show DONE only while nothing is pending. -/
theorem State.StatusInv.of_no_error (he : t.err = false) (hc : t.errcode = 0) (hd : t.pend ≠ none → t.done = false) :
    t.StatusInv :=
  ⟨fun hp => ⟨hd hp, he, hc⟩, by simp [he, hc], by simp [he], by simp [hc]⟩

theorem State.StatusInv.afterError (s : State) (c : ErrCode) : (s.afterError c.code).StatusInv :=
  ⟨fun hp => absurd rfl hp, iff_of_true rfl c.code_ne_zero, fun _ => rfl, c.code_toNat_le⟩

theorem Moved.keeps_statusInv (h : Moved s t) (hs : s.StatusInv) : t.StatusInv := by
  cases h with
  | reset => exact .of_no_error rfl rfl fun _ => rfl
  | success _ _ v => exact .of_no_error rfl rfl fun hp => absurd rfl hp
  | failure _ c => exact .afterError _ c
  | issue _ _ w => exact .of_no_error rfl rfl fun _ => rfl
  | idle | respond | poll | passBy | setCoef | setPoint => exact hs.congr rfl rfl rfl rfl

theorem Moved.keeps_wf (h : Moved s t) (hs : s.mem.wf) : t.mem.wf := by
  cases h with
  | reset => exact Memory.reset_wf
  | setCoef _ _ _ htarget c =>
    obtain ⟨-, -, -, hi⟩ := target_coef htarget
    exact Memory.setCoef_wf (s := s.endTurn) hi hs
  | setPoint _ _ _ htarget x y =>
    obtain ⟨-, -, -, hi⟩ := target_point htarget
    exact Memory.setPoint_wf (s := s.endTurn) hi hs
  | success | failure | idle | respond | poll | passBy | issue => exact hs

end

/-- Settles O44: each of the ways a step moves the state keeps the STATUS invariants and the canonical form. -/
theorem stepKeepsInvariant : Obligations.StepKeepsInvariant :=
  fun _ _ hs h => ⟨(step_moved h).keeps_statusInv hs.status, (step_moved h).keeps_wf hs.memory⟩

/-- After reset STATUS shows no error and the buffers list nothing. -/
theorem reset_statusInv (program : List HostStmt) (schedule : List Turn) :
    State.StatusInv { State.reset with host := program, turns := schedule } :=
  .of_no_error rfl rfl fun _ => rfl

/-- Settles O43, by the reset values of STATUS and of the buffers. -/
theorem resetMeetsInvariant : Obligations.ResetMeetsInvariant := ⟨reset_statusInv [] [], Memory.reset_wf⟩

/-- What every step keeps holds at the end of a run that begins with it. -/
theorem run_keeps {P : State → Prop} (hstep : ∀ s t, P s → step s = .next t → P t) {n : Nat} {s t : State} (hs : P s)
    (h : Host.Core.run core n s = .next t) : P t := by
  induction n generalizing s with
  | zero => cases h; exact hs
  | succ n ih =>
    obtain ⟨u, hu⟩ | ⟨f, hf, -⟩ := step_goesOnOrUnwritten s
    · exact ih (hstep s u hs hu) (run_of_next hu ▸ h)
    · rw [run_of_fault hf] at h
      cases h

/-- Settles O45: reset meets the STATUS invariants and every step keeps them. -/
theorem reachableStatusInvariants : Obligations.ReachableStatusInvariants :=
  fun program schedule _ _ h =>
    run_keeps (fun _ _ hs h => (step_moved h).keeps_statusInv hs) (reset_statusInv program schedule) h

/-! ### Which steps change what -/

/-- Settles O46: besides the reset, only the completions and the issue touch STATUS. -/
theorem statusChangesOnlyBy : Obligations.StatusChangesOnlyBy := by
  intro s t h hne
  cases step_moved h with
  | reset hturn => exact .inl hturn
  | success hp _ v => exact .inr (.inl ⟨hp, rfl, rfl⟩)
  | failure hp c => exact .inr (.inl ⟨hp, rfl, rfl⟩)
  | issue _ hp w => exact .inr (.inr ⟨hp, by simp, rfl, rfl, rfl⟩)
  | idle | respond | poll | passBy | setCoef | setPoint => exact absurd rfl hne

/-- Settles O47: besides the reset, only the successful completion writes RESULT. -/
theorem resultWrittenOnlyBySuccess : Obligations.ResultWrittenOnlyBySuccess := by
  intro s t h hne
  cases step_moved h with
  | reset hturn => exact .inl hturn
  | success hp hturn v => exact .inr ⟨hp, rfl, rfl, rfl, hturn⟩
  | failure | idle | respond | poll | passBy | issue | setCoef | setPoint => exact absurd rfl hne

/-- Settles O48: besides the reset, only the two stores touch the buffers, and their offsets are those of the
entries. -/
theorem buffersChangeOnlyByHostWrite : Obligations.BuffersChangeOnlyByHostWrite := by
  intro s t h hne
  cases step_moved h with
  | reset hturn => exact .inl hturn
  | setCoef hf hp hh htarget c =>
    obtain ⟨hlow, hhigh, -, -⟩ := target_coef htarget
    exact .inr ⟨hp, hf, _, _, hh, hlow, by omega⟩
  | setPoint hf hp hh htarget x y =>
    obtain ⟨hlow, hhigh, -, -⟩ := target_point htarget
    exact .inr ⟨hp, hf, _, _, hh, by omega, hhigh⟩
  | success | failure | idle | respond | poll | passBy | issue => exact absurd rfl hne

/-- Settles O49: while a command is pending no write is accepted, so only its completion is left to change the block. -/
theorem pendingCommandIsStable : Obligations.PendingCommandIsStable := by
  intro s t w hp hturn h
  cases step_moved h with
  | reset hreset => exact absurd hreset hturn
  | success | failure => exact ⟨rfl, .inr ⟨rfl, rfl⟩⟩
  | idle | respond | poll | passBy => exact ⟨rfl, .inl hp⟩
  | issue _ hidle | setCoef _ hidle | setPoint _ hidle => simp [hp] at hidle

/-- Settles O50: a marked host makes no access, and the engine and the reset leave the host's side alone. -/
theorem faultMarkStays : Obligations.FaultMarkStays := by
  intro s t hmark h
  cases step_moved h with
  | reset hturn => exact ⟨hmark, rfl, rfl, fun hno => absurd hturn hno⟩
  | success | failure | idle => exact ⟨hmark, rfl, rfl, fun _ => rfl⟩
  | respond hf | poll hf | passBy hf | issue hf | setCoef hf | setPoint hf => simp [hmark] at hf

end Sys2Proof.Machine
end

section
/-! The field: the reference product of R100 is the table product of R106, the tables invert each other, and gadd, gmul
and gdiv obey the laws of a field (40_field_arithmetic.md R103, R107, R108, R112, R119). -/

namespace Sys2Proof.Machine

/-! ### The reference product is additive in each factor, and associative with GENERATOR -/

/-- A term that stands in both summands cancels. -/
theorem xor_xor_xor_cancel (a b c : Byte) : a ^^^ c ^^^ (b ^^^ c) = a ^^^ b := by
  rw [BitVec.xor_comm b c, BitVec.xor_assoc, ← BitVec.xor_assoc c, BitVec.xor_self, BitVec.zero_xor]

/-- The shift of R100 is additive: so are its two parts, the shift and the reduction by the bit shifted out. -/
theorem xtime_xor (a b : Byte) : xtime (a ^^^ b) = xtime a ^^^ xtime b := by
  cases ha : a.getLsbD 7 <;> cases hb : b.getLsbD 7 <;>
    simp only [xtime, BitVec.getLsbD_xor, ha, hb, BitVec.shiftLeft_xor_distrib, Bool.xor_false, Bool.false_xor,
      Bool.xor_self, if_true, Bool.false_eq_true, if_false]
  · ac_rfl
  · ac_rfl
  · exact (xor_xor_xor_cancel _ _ _).symm

/-- One pass of the loop of R100 is additive in the running sum and the first factor together. -/
theorem pmulStep_xor_left (b : Byte) (k : Nat) (p q : Byte × Byte) :
    pmulStep b (p.1 ^^^ q.1, p.2 ^^^ q.2) k =
      ((pmulStep b p k).1 ^^^ (pmulStep b q k).1, (pmulStep b p k).2 ^^^ (pmulStep b q k).2) := by
  simp only [pmulStep, xtime_xor, Prod.mk.injEq, and_true]
  split
  · ac_rfl
  · rfl

/-- One pass is additive in the running sum and the second factor together. -/
theorem pmulStep_xor_right (b c : Byte) (k : Nat) (r r' a : Byte) :
    pmulStep (b ^^^ c) (r ^^^ r', a) k = ((pmulStep b (r, a) k).1 ^^^ (pmulStep c (r', a) k).1, xtime a) := by
  cases hb : b.getLsbD k <;> cases hc : c.getLsbD k <;>
    simp only [pmulStep, BitVec.getLsbD_xor, hb, hc, Bool.xor_false, Bool.false_xor, Bool.xor_self, if_true,
      Bool.false_eq_true, if_false, Prod.mk.injEq, and_true]
  · ac_rfl
  · ac_rfl
  · exact (xor_xor_xor_cancel _ _ _).symm

theorem pmul_xor_left (a a' b : Byte) : pmul (a ^^^ a') b = pmul a b ^^^ pmul a' b := by
  have hloop (ks : List Nat) (r r' a a' : Byte) :
      (ks.foldl (pmulStep b) (r ^^^ r', a ^^^ a')).1 =
        (ks.foldl (pmulStep b) (r, a)).1 ^^^ (ks.foldl (pmulStep b) (r', a')).1 := by
    induction ks generalizing r r' a a' with
    | nil => rfl
    | cons k ks ih => rw [List.foldl_cons, pmulStep_xor_left b k (r, a) (r', a'), ih]; rfl
  exact hloop _ 0 0 a a'

theorem pmul_xor_right (a b c : Byte) : pmul a (b ^^^ c) = pmul a b ^^^ pmul a c := by
  have hloop (ks : List Nat) (r r' a : Byte) :
      (ks.foldl (pmulStep (b ^^^ c)) (r ^^^ r', a)).1 =
        (ks.foldl (pmulStep b) (r, a)).1 ^^^ (ks.foldl (pmulStep c) (r', a)).1 := by
    induction ks generalizing r r' a with
    | nil => rfl
    | cons k ks ih => rw [List.foldl_cons, pmulStep_xor_right, ih]; rfl
  exact hloop _ 0 0 a

theorem pmul_zero_left (b : Byte) : pmul 0 b = 0 := by
  have h := pmul_xor_left 0 0 b
  rwa [BitVec.xor_self, BitVec.xor_self] at h

theorem pmul_zero_right (a : Byte) : pmul a 0 = 0 := by
  have h := pmul_xor_right a 0 0
  rwa [BitVec.xor_self, BitVec.xor_self] at h

/-- The bits of a byte below bit n, in place. -/
def lowBits (n : Nat) (a : Byte) : Byte := (a.setWidth n).setWidth 8

theorem lowBits_succ (n : Nat) (a : Byte) :
    lowBits (n + 1) a = lowBits n a ^^^ if a.getLsbD n then BitVec.twoPow 8 n else 0 := by
  ext i hi
  by_cases hn : i = n
  · subst hn
    cases h : a.getLsbD i <;> simp [lowBits, h, hi, ← BitVec.getLsbD_eq_getElem]
  · have hlt : i ≤ n ↔ i < n := by omega
    cases a.getLsbD n <;> simp [lowBits, hi, ← BitVec.getLsbD_eq_getElem, hlt, Ne.symm hn]

/-- What holds of 0 and of the eight single bits, and of the sum of any two bytes it holds of, holds of every byte. -/
theorem byte_induction {P : Byte → Prop} (hzero : P 0) (hbit : ∀ k : Fin 8, P (BitVec.twoPow 8 k))
    (hxor : ∀ a b, P a → P b → P (a ^^^ b)) (a : Byte) : P a := by
  have hlow : ∀ n, n ≤ 8 → P (lowBits n a) := by
    intro n hn
    induction n with
    | zero =>
      have hnone : lowBits 0 a = 0 := by rw [lowBits, BitVec.of_length_zero (x := a.setWidth 0)]; rfl
      exact hnone ▸ hzero
    | succ n ih =>
      rw [lowBits_succ]
      refine hxor _ _ (ih (by omega)) ?_
      split
      · exact hbit ⟨n, by omega⟩
      · exact hzero
  simpa [lowBits] using hlow 8 le_rfl

/-- The product is associative where the last factor is GENERATOR = 0x03: both sides are additive in the other two
factors, and on single bits this is the check that the reduction by 0x1B is the one of FIELD_POLY. -/
theorem pmul_pmul_generator (a b : Byte) : pmul a (pmul b 0x03) = pmul (pmul a b) 0x03 := by
  induction b using byte_induction with
  | hzero => simp only [pmul_zero_left, pmul_zero_right]
  | hxor b c hb hc => simp only [pmul_xor_left, pmul_xor_right, hb, hc]
  | hbit k =>
    induction a using byte_induction with
    | hzero => simp only [pmul_zero_left]
    | hxor a a' ha ha' => simp only [pmul_xor_left, ha, ha']
    | hbit j => revert k j; decide +kernel

/-! ### The tables invert each other (R103) -/

theorem expRom_ne_zero : ∀ i : Fin 255, expRom i ≠ 0 := by decide +kernel

/-- LOG undoes EXP: the check of the listed bytes of R105 against those of R104. -/
theorem logRom_expRom : ∀ i : Fin 255, (logRom (expRom i)).toNat = i.val := by decide +kernel

theorem expRom_injective {i j : Fin 255} (h : expRom i = expRom j) : i = j :=
  Fin.ext (by rw [← logRom_expRom i, h, logRom_expRom])

/-- EXP has 255 different entries, none of them 0, so it reaches all the 255 non-zero bytes. -/
theorem expRom_surjective {a : Byte} (ha : a ≠ 0) : ∃ i, expRom i = a := by
  have hnonzero {b : Byte} (hb : b ≠ 0) : b.toNat ∈ Finset.Ico 1 256 :=
    Finset.mem_Ico.2 ⟨Nat.pos_of_ne_zero fun h => hb (BitVec.eq_of_toNat_eq h), b.isLt⟩
  have hinj : Function.Injective fun i : Fin 255 => (expRom i).toNat :=
    fun _ _ h => expRom_injective (BitVec.eq_of_toNat_eq h)
  have himage : Finset.univ.image (fun i : Fin 255 => (expRom i).toNat) = Finset.Ico 1 256 :=
    Finset.eq_of_subset_of_card_le (Finset.image_subset_iff.2 fun i _ => hnonzero (expRom_ne_zero i))
      (by simp [Finset.card_image_of_injective _ hinj])
  obtain ⟨i, -, hi⟩ := Finset.mem_image.1 (himage ▸ hnonzero ha)
  exact ⟨i, BitVec.eq_of_toNat_eq hi⟩

theorem expMod_ne_zero (n : Nat) : expMod n ≠ 0 := expRom_ne_zero _

/-- EXP repeats after 255 indices and not before. -/
theorem expMod_eq_iff {m n : Nat} : expMod m = expMod n ↔ m % 255 = n % 255 :=
  ⟨fun h => congrArg Fin.val (expRom_injective h), fun h => congrArg expRom (Fin.ext h)⟩

theorem logRom_expMod (n : Nat) : (logRom (expMod n)).toNat = n % 255 := logRom_expRom _

/-- EXP undoes LOG on the non-zero bytes. -/
theorem expMod_logRom {a : Byte} (ha : a ≠ 0) : expMod (logRom a).toNat = a := by
  obtain ⟨i, rfl⟩ := expRom_surjective ha
  rw [logRom_expRom, expMod_val]

theorem logRom_lt {a : Byte} (ha : a ≠ 0) : (logRom a).toNat < 255 := by
  obtain ⟨i, rfl⟩ := expRom_surjective ha
  rw [logRom_expRom]
  exact i.isLt

/-- Every non-zero byte is a table read. -/
theorem exists_expMod {a : Byte} (ha : a ≠ 0) : ∃ n, n < 255 ∧ expMod n = a := ⟨_, logRom_lt ha, expMod_logRom ha⟩

/-! ### The product by the tables (R106, R107) -/

/-- The exponents of a product add (R106). -/
theorem gmul_expMod (m n : Nat) : gmul (expMod m) (expMod n) = expMod (m + n) := by
  rw [gmul_of_ne (expMod_ne_zero m) (expMod_ne_zero n), logRom_expMod, logRom_expMod, expMod_eq_iff, ← Nat.add_mod]

/-- The exponents of a reference product add too, one step of the walk at a time. -/
theorem pmul_expMod (m n : Nat) : pmul (expMod m) (expMod n) = expMod (m + n) := by
  induction n with
  | zero =>
    have hone : ∀ a, pmul a 0x01 = a := by
      intro a
      simp [pmul, pmulStep, List.range_succ]
    exact hone _
  | succ n ih => rw [expMod_succ, pmul_pmul_generator, ih, ← expMod_succ, Nat.add_assoc]

theorem gmul_eq_pmul (a b : Byte) : gmul a b = pmul a b := by
  by_cases ha : a = 0
  · rw [ha, gmul_zero_left, pmul_zero_left]
  by_cases hb : b = 0
  · rw [hb, gmul_zero_right, pmul_zero_right]
  obtain ⟨m, -, rfl⟩ := exists_expMod ha
  obtain ⟨n, -, rfl⟩ := exists_expMod hb
  rw [gmul_expMod, pmul_expMod]

/-- Settles O9: on non-zero bytes both products add the exponents of 0x03. -/
theorem tableProductIsFieldProduct : Obligations.TableProductIsFieldProduct := gmul_eq_pmul

/-! ### Powers (R101, R103, R108) -/

/-- The powers of a power of 0x03: the exponents multiply. -/
theorem powerWalk_expMod (e n : Nat) : powerWalk (expMod e) n = expMod (e * n) := by
  induction n with
  | zero => rfl
  | succ n ih => rw [powerWalk_succ, ih, pmul_expMod, Nat.mul_succ]

/-- EXP[0] is 0x01. -/
theorem one_eq_expMod_zero : (0x01 : Byte) = expMod 0 := rfl

/-- Settles O11, by LOG undoing EXP and by the count of EXP's entries. 0x02 is EXP[25], and 25·n is a multiple of 255
exactly for the multiples n of 51. -/
theorem tablesInvertEachOther : Obligations.TablesInvertEachOther := by
  have htwo : (0x02 : Byte) = expMod 25 := rfl
  refine ⟨expRom_ne_zero, fun _ _ => expRom_injective, fun _ => expRom_surjective, logRom_expRom,
    fun a ha => ⟨logRom_lt ha, (expMod_val ⟨_, logRom_lt ha⟩).symm.trans (expMod_logRom ha)⟩, ?_, fun n h0 hn => ?_, ?_,
    fun n h0 hn => ?_⟩
  · rw [powerWalk_generator, one_eq_expMod_zero, expMod_eq_iff]
  · rw [powerWalk_generator, one_eq_expMod_zero, Ne, expMod_eq_iff]
    omega
  · rw [htwo, powerWalk_expMod, one_eq_expMod_zero, expMod_eq_iff]
  · rw [htwo, powerWalk_expMod, one_eq_expMod_zero, Ne, expMod_eq_iff]
    omega

/-! ### The laws (R112, R119) -/

theorem gmul_comm (a b : Byte) : gmul a b = gmul b a := by
  simp only [gmul, Nat.add_comm, or_comm]

theorem gmul_one (a : Byte) : gmul a 0x01 = a := by
  by_cases ha : a = 0
  · rw [ha, gmul_zero_left]
  · obtain ⟨n, -, rfl⟩ := exists_expMod ha
    rw [one_eq_expMod_zero, gmul_expMod, Nat.add_zero]

theorem gmul_assoc (a b c : Byte) : gmul (gmul a b) c = gmul a (gmul b c) := by
  by_cases ha : a = 0
  · simp only [ha, gmul_zero_left]
  by_cases hb : b = 0
  · simp only [hb, gmul_zero_left, gmul_zero_right]
  by_cases hc : c = 0
  · simp only [hc, gmul_zero_right]
  obtain ⟨l, -, rfl⟩ := exists_expMod ha
  obtain ⟨m, -, rfl⟩ := exists_expMod hb
  obtain ⟨n, -, rfl⟩ := exists_expMod hc
  simp only [gmul_expMod, Nat.add_assoc]

theorem gmul_xor (a b c : Byte) : gmul a (b ^^^ c) = gmul a b ^^^ gmul a c := by
  simp only [gmul_eq_pmul, pmul_xor_right]

/-- The quotient times the divisor is the dividend (R112). -/
theorem gmul_gquot {b : Byte} (hb : b ≠ 0) (a : Byte) : gmul (gquot a b) b = a := by
  by_cases ha : a = 0
  · rw [gquot, ha, gdiv_zero_left hb]
    exact gmul_zero_left b
  · have hlt := logRom_lt hb
    calc gmul (gquot a b) b
        = gmul (expMod ((logRom a).toNat + 255 - (logRom b).toNat)) (expMod (logRom b).toNat) := by
          rw [gquot, gdiv_of_ne ha hb, expMod_logRom hb]
      _ = expMod (logRom a).toNat := by rw [gmul_expMod, expMod_eq_iff]; omega
      _ = a := expMod_logRom ha

/-- A non-zero factor cancels. -/
theorem gmul_right_cancel {a a' b : Byte} (hb : b ≠ 0) (h : gmul a b = gmul a' b) : a = a' := by
  have hinv : gmul b (gquot 0x01 b) = 0x01 := by rw [gmul_comm, gmul_gquot hb]
  rw [← gmul_one a, ← gmul_one a', ← hinv, ← gmul_assoc, ← gmul_assoc, h]

/-- The quotient is the only byte that times the divisor is the dividend. -/
theorem gdiv_eq_of_gmul_eq {a b q : Byte} (hb : b ≠ 0) (h : gmul q b = a) : gdiv a b = .ok q := by
  rw [gdiv_ok hb, gmul_right_cancel hb ((gmul_gquot hb a).trans h.symm)]

theorem gdiv_self {a : Byte} (ha : a ≠ 0) : gdiv a a = .ok 0x01 :=
  gdiv_eq_of_gmul_eq ha (by rw [gmul_comm, gmul_one])

/-- The inverse of a non-zero byte (R112). -/
theorem exists_inverse {a : Byte} (ha : a ≠ 0) : ∃ v, gdiv 0x01 a = .ok v ∧ gmul a v = 0x01 :=
  ⟨_, gdiv_ok ha, by rw [gmul_comm, gmul_gquot ha]⟩

/-- Settles O12: the product of non-zero bytes adds exponents, and it is the reference product, which is additive. -/
theorem fieldLaws : Obligations.FieldLaws :=
  ⟨BitVec.xor_comm, BitVec.xor_assoc, gmul_comm, gmul_assoc, gmul_xor, fun _ => BitVec.xor_zero, gmul_one,
    gmul_zero_right, fun _ => exists_inverse⟩

/-- Settles O13, by the quotient times the divisor. -/
theorem divisionLaws : Obligations.DivisionLaws :=
  ⟨fun a _ hb => ⟨_, gdiv_ok hb, gmul_gquot hb a⟩, fun _ => gdiv_self, fun _ => exists_inverse, gdiv_zero_right 0⟩

/-! ### Any other generator (R108) -/

/-- The exponents of a generator g = EXP[e] of order 255, times e, are all the exponents of 0x03: no two of them agree
modulo 255. -/
theorem exists_exponent_of_order {e : Nat} (horder : ∀ n, 0 < n → n < 255 → (e * n) % 255 ≠ 0) (l : Fin 255) :
    ∃ i : Fin 255, (e * i.val) % 255 = l.val := by
  have hinj : Function.Injective fun i : Fin 255 => (⟨(e * i.val) % 255, Nat.mod_lt _ (by decide)⟩ : Fin 255) := by
    intro i j hij
    wlog hle : i.val ≤ j.val generalizing i j with hsymm
    · exact (hsymm hij.symm (by omega)).symm
    have hdiff : (e * (j.val - i.val)) % 255 = 0 := by
      rw [Nat.mul_sub]
      exact Nat.sub_mod_eq_zero_of_mod_eq (congrArg Fin.val hij).symm
    by_contra hne
    exact horder (j.val - i.val) (by omega) (by omega) hdiff
  obtain ⟨i, hi⟩ := Finite.injective_iff_surjective.1 hinj l
  exact ⟨i, congrArg Fin.val hi⟩

/-- Settles O14: a byte g of order 255 is EXP[e] for some e, and its powers are the EXP[e·i]. -/
theorem generatorDoesNotMatter : Obligations.GeneratorDoesNotMatter := by
  intro g hone horder
  have hg : g ≠ 0 := by
    rintro rfl
    rw [powerWalk_succ, pmul_zero_right] at hone
    simp at hone
  obtain ⟨e, -, rfl⟩ := exists_expMod hg
  simp only [powerWalk_expMod, one_eq_expMod_zero, Ne, expMod_eq_iff, Nat.zero_mod] at hone horder ⊢
  have hmod (n : Nat) : expMod (e * (n % 255)) = expMod (e * n) := by
    rw [expMod_eq_iff, Nat.mul_mod, Nat.mod_mod, ← Nat.mul_mod]
  have hproduct (i j : Nat) : gmul (expMod (e * i)) (expMod (e * j)) = expMod (e * ((i + j) % 255)) := by
    rw [gmul_expMod, hmod, Nat.mul_add]
  refine ⟨fun a ha => ?_, fun i j hi hj => ⟨hproduct i j, gdiv_eq_of_gmul_eq (expMod_ne_zero _) ?_⟩⟩
  · obtain ⟨l, rfl⟩ := expRom_surjective ha
    obtain ⟨i, hi⟩ := exists_exponent_of_order horder l
    exact ⟨i, i.isLt, by rw [← expMod_val, expMod_eq_iff, hi, Nat.mod_eq_of_lt l.isLt]⟩
  · rw [hproduct]
    congr 2
    omega

end Sys2Proof.Machine
end

section
/-! The commands: what Execute returns for each of them, as a function of the command and the buffers alone, and the two
completions (10_state.md R36, R37; 40_field_arithmetic.md R113 to R120; 60_exceptions.md R201). -/

namespace Sys2Proof.Machine

/-! ### What Execute returns (R88) -/

/-- What a command returns: the byte or the error code of its completion, or the fault of its operand read. -/
def execResult (m : Memory) : Instr → Except Fault (Except ErrCode Byte)
  | .add a b => .ok (.ok (a ^^^ b))
  | .mul a b => .ok (.ok (gmul a b))
  | .div a b => .ok (gdiv a b)
  | .log a => .ok (if a = 0 then .error .logOfZero else .ok (logRom a))
  | .exp i => .ok (if i < 255 then .ok (expMod i) else .error .expOutOfRange)
  | .eval x d => (coefOperand m d).map fun c => .ok (polyEval c x)
  | .interp n => (pointOperand m n).map lagrange0

/-- What the completion of a command word returns: that of its command, or ILLEGAL_COMMAND (R84 to R86). -/
def wordResult (m : Memory) (w : Word) : Except Fault (Except ErrCode Byte) :=
  match decode w with
  | .ok i => execResult m i
  | .error _ => .ok (.error .illegalCommand)

/-- The completion with what Execute returned, or the fault. -/
def complete (s : State) : Except Fault (Except ErrCode Byte) → Host.Outcome State Fault Refusal
  | .ok r => finish r s
  | .error f => .fault f

section

variable {s t : State} {w : Word}

/-- A command is its completion with what it returns: it reads nothing of the state but the buffers. -/
theorem exec_eq_complete (i : Instr) (s : State) : exec i s = complete s (execResult s.mem i) := by
  cases i with
  | add a b => rfl
  | mul a b => rfl
  | div a b => rfl
  | log a => rw [exec, execLog, execResult]; split <;> rfl
  | exp i =>
    rw [exec, execExp, execResult]
    split
    case isTrue h => rw [← expMod_val ⟨i, h⟩]; rfl
    case isFalse => rfl
  | eval x d => rw [exec, execEval, execResult]; cases coefOperand s.mem d <;> rfl
  | interp n => rw [exec, execInterp, execResult]; cases pointOperand s.mem n <;> rfl

/-- A completion with a next state is one of the two ends of R36. -/
theorem complete_next {o : Except Fault (Except ErrCode Byte)} (h : complete s o = .next t) :
    (∃ v, o = .ok (.ok v) ∧ t = s.afterSuccess v) ∨ ∃ c, o = .ok (.error c) ∧ t = s.afterError c.code := by
  cases o with
  | error f => cases h
  | ok r =>
    obtain ⟨v, rfl, ht⟩ | ⟨c, rfl, ht⟩ := finish_cases h
    · exact .inl ⟨v, rfl, ht⟩
    · exact .inr ⟨c, rfl, ht⟩

theorem exec_of_ok {i : Instr} {v : Byte} (h : execResult s.mem i = .ok (.ok v)) :
    exec i s = .next (s.afterSuccess v) := by
  rw [exec_eq_complete, h]
  exact finish_ok s v

theorem exec_of_error {i : Instr} {c : ErrCode} (h : execResult s.mem i = .ok (.error c)) :
    exec i s = .next (s.afterError c.code) := by
  rw [exec_eq_complete, h]
  exact finish_error s c

theorem exec_of_fault {i : Instr} {f : Fault} (h : execResult s.mem i = .error f) : exec i s = .fault f := by
  rw [exec_eq_complete, h]
  rfl

theorem wordResult_of_ok {m : Memory} {i : Instr} (h : decode w = .ok i) : wordResult m w = execResult m i := by
  rw [wordResult, h]

theorem wordResult_of_error {m : Memory} {e : Reject} (h : decode w = .error e) :
    wordResult m w = .ok (.error .illegalCommand) := by
  rw [wordResult, h]

theorem execWord_eq_complete (w : Word) (s : State) : execWord w s = complete s (wordResult s.mem w) := by
  cases h : decode w with
  | ok i => rw [execWord_of_decode_ok h, wordResult_of_ok h, exec_eq_complete]
  | error e => rw [execWord_of_decode_error h, wordResult_of_error h]; rfl

/-- With an empty schedule a pending command completes (log entry 1). -/
theorem step_pending_of_nil (hp : s.pend = some w) (ht : s.turns = []) : step s = execWord w s := by
  simp [step, ht, State.busy, hp, engineStep]

end

/-- Settles O7: the engine decodes the pending word and executes the command. -/
theorem stepRunsDecodedCommand : Obligations.StepRunsDecodedCommand := by
  intro s w i hp hi
  refine ⟨fun ts ht => ?_, fun ht => ?_⟩
  · rw [step_engine_pending hp ht, execWord_of_decode_ok hi]
  · rw [step_pending_of_nil hp ht, execWord_of_decode_ok hi]

/-! ### ADD, MUL, DIV, LOG and EXP (R113 to R117) -/

/-- Settles O15: ADD is the sum of its operands. -/
theorem addCompletes : Obligations.AddCompletes := fun _ _ _ => exec_of_ok rfl

/-- Settles O16: MUL is the table product, which is the field product. -/
theorem mulCompletes : Obligations.MulCompletes := by
  intro a b s
  rw [← gmul_eq_pmul]
  exact exec_of_ok rfl

/-- DIV by a non-zero divisor returns the quotient. -/
theorem execResult_div {b : Byte} (hb : b ≠ 0) (m : Memory) (a : Byte) :
    execResult m (.div a b) = .ok (.ok (gquot a b)) := by
  rw [execResult, gdiv_ok hb]

/-- Settles O17, by the quotient times the divisor. -/
theorem divCompletes : Obligations.DivCompletes := by
  intro a b s hb
  exact ⟨gquot a b, by rw [← gmul_eq_pmul, gmul_gquot hb], exec_of_ok (execResult_div hb _ a)⟩

theorem execResult_log {a : Byte} (ha : a ≠ 0) (m : Memory) : execResult m (.log a) = .ok (.ok (logRom a)) := by
  rw [execResult, if_neg ha]

theorem execResult_exp {i : Nat} (hi : i < 255) (m : Memory) : execResult m (.exp i) = .ok (.ok (expMod i)) := by
  rw [execResult, if_pos hi]

/-- Settles O18: the walk at the exponent that LOG holds is the table read at it, which undoes LOG. -/
theorem logCompletes : Obligations.LogCompletes := by
  intro a s ha
  refine ⟨(logRom a).toNat, logRom_lt ha, (powerWalk_generator _).trans (expMod_logRom ha), ?_⟩
  rw [BitVec.ofNat_toNat, BitVec.setWidth_eq]
  exact exec_of_ok (execResult_log ha _)

/-- Settles O19: EXP reads the table, which is the walk. -/
theorem expCompletes : Obligations.ExpCompletes := by
  intro i s hi
  rw [powerWalk_generator]
  exact exec_of_ok (execResult_exp hi _)

/-- Settles O20, by the checks of DIV, LOG and EXP on their operands. -/
theorem fieldCommandErrors : Obligations.FieldCommandErrors := by
  refine fun s => ⟨fun a => ?_, ?_, ?_⟩
  · exact exec_of_error (c := .divByZero) (by rw [execResult, gdiv_zero_right])
  · exact exec_of_error (c := .logOfZero) rfl
  · exact exec_of_error (c := .expOutOfRange) rfl

/-- Settles O30: LOG returns an exponent of a below 255, EXP reads a back, and 0x01 is the unit of MUL. -/
theorem involutionThroughCommands : Obligations.InvolutionThroughCommands := by
  intro s
  obtain ⟨hdiv, -, -⟩ := fieldCommandErrors s
  refine ⟨hdiv 0x00, fun a ha => ⟨?_, ?_⟩⟩
  · exact exec_of_ok (by rw [execResult, gdiv_self ha])
  · refine ⟨_, _, _, exec_of_ok (execResult_log ha _), exec_of_ok (execResult_exp (logRom_lt ha) _), exec_of_ok rfl, ?_,
      rfl, rfl, rfl⟩
    simp only [State.afterSuccess_rval, expMod_logRom ha, gmul_one]

/-! ### EVAL and INTERP on written and unwritten entries (R32, R71, R234) -/

/-- An operand read that meets an unwritten entry names one. -/
theorem entriesFrom_of_unwritten {α : Type} {b : Buffer α} {unwritten : Nat → Fault} {n : Nat}
    (h : ∃ i, i < n ∧ b.read i = none) :
    ∃ i, i < n ∧ b.read i = none ∧ entriesFrom b unwritten 0 n = .error (unwritten i) := by
  obtain ⟨vs, -, hlen, hread⟩ | ⟨k, hk, hnone, herr⟩ := entriesFrom_cases b unwritten 0 n
  · obtain ⟨i, hi, hnone⟩ := h
    have hget : vs[i]? = none := by rw [← hread i hi, Nat.zero_add, hnone]
    rw [List.getElem?_eq_none_iff] at hget
    omega
  · rw [Nat.zero_add] at hnone herr
    exact ⟨k, hk, hnone, herr⟩

/-- Settles O28, by the operand reads of the two commands. -/
theorem unwrittenOperandFaults : Obligations.UnwrittenOperandFaults := by
  intro s
  refine ⟨fun x d _ ⟨i, hi, hnone⟩ => ?_, fun m _ _ hnone => ?_⟩
  · obtain ⟨k, hk, hk_none, herr⟩ :=
      entriesFrom_of_unwritten (unwritten := .unwrittenCoef) ⟨i, Nat.lt_succ_of_le hi, hnone⟩
    exact ⟨k, Nat.le_of_lt_succ hk, hk_none, exec_of_fault (by rw [execResult, coefOperand, herr]; rfl)⟩
  · obtain ⟨k, hk, hk_none, herr⟩ := entriesFrom_of_unwritten (unwritten := .unwrittenPoint) hnone
    exact ⟨k, hk, hk_none, exec_of_fault (by rw [execResult, pointOperand, herr]; rfl)⟩

/-- Settles O29: a command stops only on an unwritten entry that it reads, and both completions set DONE. -/
theorem readyCommandsComplete : Obligations.ReadyCommandsComplete := by
  intro i s _ hready
  obtain ⟨r, h⟩ | ⟨k, hnone, -, x, d, rfl, hk⟩ | ⟨k, hnone, -, m, rfl, hk⟩ := exec_cases i s
  · cases r with
    | ok v => exact ⟨_, h, rfl, rfl⟩
    | error c => exact ⟨_, h, rfl, rfl⟩
  · exact absurd hnone (hready k hk)
  · exact absurd hnone (hready k hk)

/-! ### Frame, error codes and what a completion depends on (R31, R37, R201, R203) -/

/-- The bytes of the two buffers, as a host reads them, depend on the buffers alone. -/
theorem windowByte_congr {s t : State} (hmem : t.mem = s.mem) {a : Nat} (hlow : 0x400 ≤ a) (hhigh : a ≤ 0xBFF) :
    windowByte a t = windowByte a s := by
  have hoff : (BitVec.ofNat 12 (a / 4 * 4)).toNat = a / 4 * 4 := by
    rw [BitVec.toNat_ofNat]
    omega
  have hread : busRead (BitVec.ofNat 12 (a / 4 * 4)) 4 t = busRead (BitVec.ofNat 12 (a / 4 * 4)) 4 s := by
    by_cases hcoef : a < 0x800
    · have htarget := target_of_coef (off := BitVec.ofNat 12 (a / 4 * 4)) (i := (a / 4 * 4 - 0x400) / 4) (by omega)
        (by omega)
      simp only [busRead, htarget, hmem]
    · have htarget := target_of_point (off := BitVec.ofNat 12 (a / 4 * 4)) (i := (a / 4 * 4 - 0x800) / 4) (by omega)
        (by omega)
      simp only [busRead, htarget, hmem]
  rw [windowByte, windowByte, hread]

/-- Settles O31: both ends of a command are record updates of STATUS, PEND and, on success, RESULT. -/
theorem commandFrame : Obligations.CommandFrame := by
  intro i s t h
  obtain ⟨v, rfl⟩ | ⟨c, rfl⟩ := exec_next h
  · exact ⟨rfl, fun a => windowByte_congr (s := s) (t := s.afterSuccess v) rfl, rfl, rfl, rfl, rfl, rfl, rfl, by simp, fun _ => rfl⟩
  · exact ⟨rfl, fun a => windowByte_congr (s := s) (t := s.afterError c.code) rfl, rfl, rfl, rfl, rfl, rfl, rfl,
      fun _ => ⟨rfl, c.code_ne_zero⟩, by simp⟩

/-- The opcode that the encoder writes is the command's (R82). -/
theorem fieldOPC_encode (i : Instr) : fieldOPC (encode i) = Laws.EncodedFields.opcode i := by
  cases i <;> exact (packWord_fields _ _ _).1

/-- Two memories agree on the entries that the word's completion reads: COEF[0..B] for EVAL, POINT[0..B] for INTERP. -/
def AgreeOnOperands (w : Word) (m m' : Memory) : Prop :=
  (fieldOPC w = 6 → ∀ i, i ≤ (fieldB w).toNat → m.coef.read i = m'.coef.read i) ∧
    (fieldOPC w = 7 → ∀ i, i ≤ (fieldB w).toNat → m.point.read i = m'.point.read i)

/-- What a completion returns depends on the entries it reads only (R37). -/
theorem wordResult_congr {w : Word} {m m' : Memory} (h : AgreeOnOperands w m m') : wordResult m w = wordResult m' w := by
  cases hw : decode w with
  | error e => rw [wordResult_of_error hw, wordResult_of_error hw]
  | ok i =>
    rw [wordResult_of_ok hw, wordResult_of_ok hw]
    obtain ⟨hwf, rfl⟩ := encode_of_decode hw
    obtain ⟨hcoef, hpoint⟩ := h
    rw [fieldOPC_encode] at hcoef hpoint
    have hB {opc : BitVec 4} {a b : Byte} : (fieldB (packWord opc a b)).toNat = b.toNat :=
      congrArg BitVec.toNat (packWord_fields opc a b).2.2.2
    cases i with
    | eval x d =>
      have hd : d < 256 := Nat.lt_succ_of_le (of_decide_eq_true hwf)
      have hread : ∀ k, k < d + 1 → m.coef.read (0 + k) = m'.coef.read (0 + k) := fun k hk =>
        hcoef rfl _ (by rw [encode, hB, BitVec.toNat_ofNat, Nat.mod_eq_of_lt hd]; omega)
      rw [execResult, execResult, coefOperand, coefOperand, entriesFrom_congr hread]
    | interp n =>
      have hn : 1 ≤ n ∧ n ≤ 256 := by simpa [Instr.wellFormed] using hwf
      have hread : ∀ k, k < n → m.point.read (0 + k) = m'.point.read (0 + k) := fun k hk =>
        hpoint rfl _ (by rw [encode, hB, BitVec.toNat_ofNat]; omega)
      rw [execResult, execResult, pointOperand, pointOperand, entriesFrom_congr hread]
    | add | mul | div | log | exp => rfl

/-- Settles O34: both completions are made with the same result. -/
theorem resultDependsOnOperandsOnly : Obligations.ResultDependsOnOperandsOnly := by
  intro s s' t w ts ts' hp hp' ht ht' hcoef hpoint h
  rw [step_engine_pending hp ht, execWord_eq_complete] at h
  have hstep : step s' = complete { s' with turns := ts' } (wordResult s'.mem w) := by
    rw [step_engine_pending hp' ht', execWord_eq_complete]
  have hsame : wordResult s'.mem w = wordResult s.mem w := (wordResult_congr ⟨hcoef, hpoint⟩).symm
  obtain ⟨v, hv, rfl⟩ | ⟨c, hc, rfl⟩ := complete_next h
  · exact ⟨_, hstep.trans (congrArg (complete _) (hsame.trans hv)), rfl, rfl, fun _ => rfl⟩
  · exact ⟨_, hstep.trans (congrArg (complete _) (hsame.trans hc)), rfl, rfl, by simp⟩

end Sys2Proof.Machine
end

section
/-! The bytes with gadd and gmul embed into a field, in which PolyEval is the evaluation of a polynomial and Lagrange0 the
value at 0 of the interpolating polynomial, so that Mathlib's Lagrange interpolation gives the properties of EVAL and
INTERP (41_polynomial.md R142 to R149). -/

namespace Sys2Proof.Machine

/-! ### The bytes in a field -/

/-- φ embeds the bytes into the field F: it carries ⊕ to the sum and the table product to the product. -/
structure FieldEmbedding {F : Type} [Field F] (φ : Byte → F) : Prop where
  injective : Function.Injective φ
  map_xor : ∀ a b, φ (a ^^^ b) = φ a + φ b
  map_gmul : ∀ a b, φ (gmul a b) = φ a * φ b
  map_one : φ 0x01 = 1

/-- The bytes are such a field themselves, by the laws of R119. -/
theorem exists_fieldEmbedding : ∃ (F : Type) (_ : Field F) (φ : Byte → F), FieldEmbedding φ :=
  letI : Field Byte := @Field.ofMinimalAxioms Byte ⟨fun a b => a ^^^ b⟩ ⟨gmul⟩ ⟨id⟩ ⟨gquot 0x01⟩ ⟨0x00⟩ ⟨0x01⟩
    BitVec.xor_assoc (fun _ => BitVec.zero_xor) (fun _ => BitVec.xor_self) gmul_assoc gmul_comm
    (fun a => (gmul_comm _ a).trans (gmul_one a)) (fun a ha => (gmul_comm a _).trans (gmul_gquot ha 0x01)) rfl gmul_xor
    ⟨0x00, 0x01, by decide⟩
  ⟨Byte, inferInstance, id, fun _ _ h => h, fun _ _ => rfl, fun _ _ => rfl, rfl⟩

section

variable {F : Type} [Field F] {φ : Byte → F} (hφ : FieldEmbedding φ)

include hφ

theorem FieldEmbedding.map_zero : φ 0x00 = 0 := by
  have h : φ 0x00 = φ 0x00 + φ 0x00 := hφ.map_xor 0x00 0x00
  exact left_eq_add.1 h

/-- The field has characteristic 2: a sum is a difference. -/
theorem FieldEmbedding.map_xor_sub (a b : Byte) : φ (a ^^^ b) = φ a - φ b := by
  rw [eq_sub_iff_add_eq, ← hφ.map_xor, BitVec.xor_assoc, BitVec.xor_self, BitVec.xor_zero]

theorem FieldEmbedding.map_gquot (a b : Byte) : φ (gquot a b) = φ a / φ b := by
  by_cases hb : b = 0
  · rw [gquot, hb, gdiv_zero_right, hφ.map_zero, div_zero]
  · have hne : φ b ≠ 0 := fun h => hb (hφ.injective (h.trans hφ.map_zero.symm))
    rw [eq_div_iff hne, ← hφ.map_gmul, gmul_gquot hb]

theorem FieldEmbedding.map_xorSum (f : Nat → Byte) (n : Nat) : φ (xorSum f n) = ∑ i ∈ Finset.range n, φ (f i) := by
  induction n with
  | zero => exact hφ.map_zero
  | succ n ih => rw [xorSum_succ, hφ.map_xor, ih, Finset.sum_range_succ]

theorem FieldEmbedding.map_gprod (f : Nat → Byte) (n : Nat) : φ (gprod f n) = ∏ i ∈ Finset.range n, φ (f i) := by
  induction n with
  | zero => exact hφ.map_one
  | succ n ih => rw [gprod_succ, hφ.map_gmul, ih, Finset.prod_range_succ]

theorem FieldEmbedding.map_gpow (x : Byte) (k : Nat) : φ (gpow x k) = φ x ^ k := by
  induction k with
  | zero => rw [gpow_zero, hφ.map_one, pow_zero]
  | succ k ih => rw [gpow_succ, hφ.map_gmul, ih, pow_succ]

/-- Horner's method of R141 computes the sum of the terms of R142. -/
theorem FieldEmbedding.map_polyEval (c : List Byte) (x : Byte) :
    φ (polyEval c x) = ∑ i ∈ Finset.range c.length, φ (c.getD i 0) * φ x ^ i := by
  induction c with
  | nil => exact hφ.map_zero
  | cons c cs ih =>
    cases cs with
    | nil => simp
    | cons c' cs =>
      rw [polyEval_cons, hφ.map_xor, hφ.map_gmul, ih, List.length_cons (a := c),
        Finset.sum_range_succ' _ (c' :: cs).length, Finset.sum_mul]
      simp [pow_succ, mul_assoc]

end

/-! ### EVAL (R142, R143) -/

/-- What PolyEval computes is the sum of R142. -/
theorem polyEval_eq_xorSum (c : List Byte) (x : Byte) :
    polyEval c x = xorSum (fun i => gmul (c.getD i 0) (gpow x i)) c.length := by
  obtain ⟨F, _, φ, hφ⟩ := exists_fieldEmbedding
  apply hφ.injective
  simp only [hφ.map_polyEval, hφ.map_xorSum, hφ.map_gmul, hφ.map_gpow]

theorem xorSum_congr {f g : Nat → Byte} {n : Nat} (h : ∀ i, i < n → f i = g i) : xorSum f n = xorSum g n := by
  induction n with
  | zero => rfl
  | succ n ih => rw [xorSum_succ, xorSum_succ, ih fun i hi => h i (by omega), h n (by omega)]

theorem xorSum_one (f : Nat → Byte) : xorSum f 1 = f 0 := BitVec.zero_xor

/-- COEF[0..d], written, as the operand of EVAL. -/
theorem coefOperand_of_written {m : Memory} {d : Nat} {c : Nat → Byte} (h : ∀ i, i ≤ d → m.coef.read i = some (c i)) :
    coefOperand m d = .ok ((List.range' 0 (d + 1)).map c) :=
  entriesFrom_of_written c fun k hk => by rw [Nat.zero_add]; exact h k (by omega)

/-- Settles O21: EVAL reads the coefficients and evaluates them by Horner's method. -/
theorem evalCompletes : Obligations.EvalCompletes := by
  intro x d c s _ hread
  refine exec_of_ok ?_
  rw [execResult, coefOperand_of_written hread]
  change Except.ok (Except.ok _) = _
  rw [polyEval_eq_xorSum, List.length_map, List.length_range']
  congr 2
  refine xorSum_congr fun i hi => ?_
  simp [hi]

/-- The value at 0 is the constant term (R142). -/
theorem xorSum_gpow_zero (c : Nat → Byte) (d : Nat) : xorSum (fun i => gmul (c i) (gpow 0x00 i)) (d + 1) = c 0 := by
  obtain ⟨F, _, φ, hφ⟩ := exists_fieldEmbedding
  apply hφ.injective
  simp only [hφ.map_xorSum, hφ.map_gmul, hφ.map_gpow, hφ.map_zero]
  rw [Finset.sum_range_succ', Finset.sum_eq_zero fun i _ => by rw [zero_pow i.succ_ne_zero, mul_zero], zero_add, pow_zero,
    mul_one]

/-- The value at 1 is the sum of the coefficients (R142). -/
theorem xorSum_gpow_one (c : Nat → Byte) (n : Nat) : xorSum (fun i => gmul (c i) (gpow 0x01 i)) n = xorSum c n := by
  obtain ⟨F, _, φ, hφ⟩ := exists_fieldEmbedding
  apply hφ.injective
  simp only [hφ.map_xorSum, hφ.map_gmul, hφ.map_gpow, hφ.map_one, one_pow, mul_one]

/-- Settles O22, by the sum of R142 at 0, at 1 and with one term. -/
theorem evalCornerCases : Obligations.EvalCornerCases := by
  intro d c s hd hread
  refine ⟨?_, ?_, fun x => ?_⟩
  · rw [evalCompletes 0x00 d c s hd hread, xorSum_gpow_zero]
  · rw [evalCompletes 0x01 d c s hd hread, xorSum_gpow_one]
  · rw [evalCompletes x 0 c s (Nat.zero_le _) fun i hi => hread i (by omega), xorSum_one, gpow_zero, gmul_one]

/-! ### Lagrange0 in the field (R144 to R146) -/

section

variable {F : Type} [Field F] {φ : Byte → F}

/-- The value at 0 of the basis polynomial of xi over the x-coordinates xs. -/
def basisValue (φ : Byte → F) (xs : Finset Byte) (xi : Byte) : F := ∏ x ∈ xs.erase xi, φ x / (φ x - φ xi)

/-- The sum of R144 over the points p. -/
def lagrangeSum (φ : Byte → F) (xs : Finset Byte) (p : List (Byte × Byte)) : F :=
  (p.map fun q => φ q.2 * basisValue φ xs q.1).sum

variable (hφ : FieldEmbedding φ)

include hφ

/-- The inner loop of R146, over the other x-coordinates, computes the value of the basis polynomial. -/
theorem basisLoop_eraseIdx {xs : List Byte} (hxs : xs.Nodup) {i : Nat} {xi : Byte} (hi : xs[i]? = some xi) :
    ∃ l, basisLoop xi 0x01 (xs.eraseIdx i) = .ok l ∧ φ l = basisValue φ xs.toFinset xi := by
  obtain ⟨hlt, rfl⟩ := List.getElem?_eq_some_iff.1 hi
  have hfold (others : List Byte) (l : Byte) :
      φ (others.foldl (fun l x => gmul l (gquot x (x ^^^ xs[i]))) l) =
        φ l * (others.map fun x => φ x / (φ x - φ xs[i])).prod := by
    induction others generalizing l with
    | nil => simp
    | cons x others ih =>
      rw [List.foldl_cons, ih, hφ.map_gmul, hφ.map_gquot, hφ.map_xor_sub, List.map_cons, List.prod_cons, mul_assoc]
  have herase : (xs.erase xs[i]).toFinset = xs.toFinset.erase xs[i] := by
    ext x
    simp [hxs.mem_erase_iff]
  rw [← hxs.erase_getElem i hlt]
  refine ⟨_, basisLoop_ok 0x01 fun x hx => (hxs.mem_erase_iff.1 hx).1, ?_⟩
  rw [hfold, hφ.map_one, one_mul, ← List.prod_toFinset _ (hxs.erase _), herase, basisValue]

/-- The outer loop of R146 from point i on adds up the terms of the points that are left. -/
theorem lagrangeLoop_of_nodup {xs : List Byte} (hxs : xs.Nodup) {i : Nat} {p : List (Byte × Byte)}
    (hp : xs.drop i = p.map Prod.fst) (acc : Byte) :
    ∃ r, lagrangeLoop xs acc i p = .ok r ∧ φ r = φ acc + lagrangeSum φ xs.toFinset p := by
  induction p generalizing i acc with
  | nil => exact ⟨acc, rfl, by simp [lagrangeSum]⟩
  | cons q p ih =>
    obtain ⟨xi, yi⟩ := q
    have hi : xs[i]? = some xi := by rw [← List.head?_drop, hp]; rfl
    have hrest : xs.drop (i + 1) = p.map Prod.fst := by rw [← List.tail_drop, hp]; rfl
    obtain ⟨l, hl, hvalue⟩ := basisLoop_eraseIdx hφ hxs hi
    obtain ⟨r, hr, hsum⟩ := ih hrest (acc ^^^ gmul yi l)
    refine ⟨r, by rw [lagrangeLoop, hl]; exact hr, ?_⟩
    rw [hsum, hφ.map_xor, hφ.map_gmul, hvalue, lagrangeSum, lagrangeSum, List.map_cons, List.sum_cons, add_assoc]

/-- Over distinct x-coordinates Lagrange0 succeeds with the sum of R144. -/
theorem lagrange0_of_nodup {p : List (Byte × Byte)} (hp : (p.map Prod.fst).Nodup) :
    ∃ r, lagrange0 p = .ok r ∧ φ r = lagrangeSum φ (p.map Prod.fst).toFinset p := by
  obtain ⟨r, hr, hsum⟩ := lagrangeLoop_of_nodup hφ hp (i := 0) rfl 0x00
  refine ⟨r, ?_, by rw [hsum, hφ.map_zero, zero_add]⟩
  rw [lagrange0, if_neg (mt (hasDuplicate_iff _).1 (not_not.2 hp)), hr]

end

/-- Two equal x-coordinates fail (R145). -/
theorem lagrange0_of_duplicate {p : List (Byte × Byte)} (hp : ¬ (p.map Prod.fst).Nodup) :
    lagrange0 p = .error .duplicateCoordinate := by
  rw [lagrange0, if_pos ((hasDuplicate_iff _).2 hp)]

/-- The only error of Lagrange0 is DUPLICATE_COORDINATE. -/
theorem lagrange0_error {p : List (Byte × Byte)} {c : ErrCode} (h : lagrange0 p = .error c) :
    c = .duplicateCoordinate := by
  by_cases hp : (p.map Prod.fst).Nodup
  · obtain ⟨F, _, φ, hφ⟩ := exists_fieldEmbedding
    obtain ⟨r, hr, -⟩ := lagrange0_of_nodup hφ hp
    rw [hr] at h
    cases h
  · rw [lagrange0_of_duplicate hp] at h
    cases h
    rfl

/-- Settles O27: a sum and a set do not depend on an order, and the duplicate check does not either. -/
theorem pointOrderDoesNotMatter : Obligations.PointOrderDoesNotMatter := by
  intro p q hpq
  have hxs := hpq.map Prod.fst
  by_cases hp : (p.map Prod.fst).Nodup
  · obtain ⟨F, _, φ, hφ⟩ := exists_fieldEmbedding
    obtain ⟨r, hr, hsum⟩ := lagrange0_of_nodup hφ hp
    obtain ⟨r', hr', hsum'⟩ := lagrange0_of_nodup hφ (hxs.nodup_iff.1 hp)
    have hsame : φ r = φ r' := by
      rw [hsum, hsum', List.toFinset_eq_of_perm _ _ hxs]
      exact (hpq.map _).sum_eq
    rw [hr, hr', hφ.injective hsame]
  · rw [lagrange0_of_duplicate hp, lagrange0_of_duplicate (mt hxs.nodup_iff.2 hp)]

/-! ### INTERP (R144 to R149) -/

/-- Points 0..m−1, written, as the operand of INTERP. -/
theorem pointOperand_of_written {mem : Memory} {m : Nat} {x y : Nat → Byte}
    (h : ∀ i, i < m → mem.point.read i = some (x i, y i)) :
    pointOperand mem m = .ok ((List.range m).map fun i => (x i, y i)) := by
  rw [List.range_eq_range']
  exact entriesFrom_of_written (fun i => (x i, y i)) fun k hk => by rw [Nat.zero_add]; exact h k hk

section

variable {m : Nat} {x y : Nat → Byte} {s : State}

theorem exec_interp_of_ok {r : Byte} (hread : ∀ i, i < m → s.mem.point.read i = some (x i, y i))
    (h : lagrange0 ((List.range m).map fun i => (x i, y i)) = .ok r) :
    exec (.interp m) s = .next (s.afterSuccess r) :=
  exec_of_ok (by rw [execResult, pointOperand_of_written hread, ← h]; rfl)

theorem map_fst_points : ((List.range m).map fun i => (x i, y i)).map Prod.fst = (List.range m).map x := by
  rw [List.map_map]
  rfl

/-- The x-coordinates differ pairwise exactly if their list has no repeat. -/
theorem nodup_map_range_iff : ((List.range m).map x).Nodup ↔ ∀ i j, i < m → j < m → x i = x j → i = j := by
  rw [List.nodup_map_iff_inj_on List.nodup_range]
  simp only [List.mem_range]
  exact ⟨fun h i j hi hj => h i hi j hj, fun h i hi j hj => h i j hi hj⟩

/-- Settles O24, by the duplicate check. -/
theorem interpDuplicateFails : Obligations.InterpDuplicateFails := by
  intro m x y s _ hread ⟨i, j, hi, hj, hne, heq⟩
  have hdup : ¬ (((List.range m).map fun i => (x i, y i)).map Prod.fst).Nodup := by
    rw [map_fst_points, nodup_map_range_iff]
    exact fun h => hne (h i j hi hj heq)
  refine exec_of_error (c := .duplicateCoordinate) ?_
  rw [execResult, pointOperand_of_written hread, ← lagrange0_of_duplicate hdup]
  rfl

/-- The product of R144 over the point numbers is the one over the other x-coordinates. -/
theorem FieldEmbedding.map_basisAt {F : Type} [Field F] {φ : Byte → F} (hφ : FieldEmbedding φ) {i : Nat} (hi : i < m)
    (hx : ∀ i j, i < m → j < m → x i = x j → i = j) :
    φ (basisAt x m i) = basisValue φ ((List.range m).map x).toFinset (x i) := by
  have hset : ((List.range m).map x).toFinset.erase (x i) = ((Finset.range m).erase i).image x := by
    ext b
    simp only [Finset.mem_erase, List.mem_toFinset, List.mem_map, List.mem_range, Finset.mem_image, Finset.mem_range]
    constructor
    · rintro ⟨hb, j, hj, rfl⟩
      exact ⟨j, ⟨fun h => hb (h ▸ rfl), hj⟩, rfl⟩
    · rintro ⟨j, ⟨hji, hj⟩, rfl⟩
      exact ⟨fun h => hji (hx j i hj hi h), j, hj, rfl⟩
  have hinj : Set.InjOn x ((Finset.range m).erase i) := fun j hj k hk =>
    hx j k (Finset.mem_range.1 (Finset.mem_of_mem_erase hj)) (Finset.mem_range.1 (Finset.mem_of_mem_erase hk))
  rw [basisAt, hφ.map_gprod, basisValue, hset, Finset.prod_image hinj,
    ← Finset.prod_erase (a := i) _ (by rw [if_pos rfl, hφ.map_one])]
  refine Finset.prod_congr rfl fun j hj => ?_
  rw [if_neg (Finset.ne_of_mem_erase hj), hφ.map_gquot, hφ.map_xor_sub]

/-- Lagrange0 over points with distinct x is the sum of R144. -/
theorem lagrange0_points (hx : ∀ i j, i < m → j < m → x i = x j → i = j) :
    lagrange0 ((List.range m).map fun i => (x i, y i)) = .ok (xorSum (fun i => gmul (y i) (basisAt x m i)) m) := by
  obtain ⟨F, _, φ, hφ⟩ := exists_fieldEmbedding
  obtain ⟨r, hr, hsum⟩ := lagrange0_of_nodup hφ (p := (List.range m).map fun i => (x i, y i))
    (by rw [map_fst_points]; exact nodup_map_range_iff.2 hx)
  rw [hr]
  congr 1
  apply hφ.injective
  rw [hsum, hφ.map_xorSum, map_fst_points, lagrangeSum, List.map_map, ← List.sum_toFinset _ List.nodup_range,
    List.toFinset_range]
  refine Finset.sum_congr rfl fun i hi => ?_
  rw [hφ.map_gmul, hφ.map_basisAt (Finset.mem_range.1 hi) hx]
  rfl

/-- Settles O23: INTERP reads the points and computes the sum of R144 over them. -/
theorem interpCompletes : Obligations.InterpCompletes := by
  intro m x y s _ _ hread hx
  exact exec_interp_of_ok hread (lagrange0_points hx)

/-- Where x_k = 0, the basis polynomial of point k is 1 at 0, which is x_k, and the others are 0 there (R148). -/
theorem basisAt_of_zero (hx : ∀ i j, i < m → j < m → x i = x j → i = j) {k : Nat} (hk : k < m) (hzero : x k = 0x00)
    (i : Nat) : basisAt x m i = if i = k then 0x01 else 0x00 := by
  obtain ⟨F, _, φ, hφ⟩ := exists_fieldEmbedding
  apply hφ.injective
  rw [basisAt, hφ.map_gprod]
  by_cases hik : i = k
  · subst hik
    rw [if_pos rfl, hφ.map_one]
    refine Finset.prod_eq_one fun j hj => ?_
    by_cases hji : j = i
    · rw [if_pos hji, hφ.map_one]
    · have hne : φ (x j) ≠ 0 := fun h =>
        hji (hx j i (Finset.mem_range.1 hj) hk (hzero ▸ hφ.injective (h.trans hφ.map_zero.symm)))
      rw [if_neg hji, hφ.map_gquot, hφ.map_xor_sub, hzero, hφ.map_zero, sub_zero, div_self hne]
  · rw [if_neg hik, hφ.map_zero]
    refine Finset.prod_eq_zero (Finset.mem_range.2 hk) ?_
    rw [if_neg (Ne.symm hik), hφ.map_gquot, hzero, hφ.map_zero, zero_div]

/-- Settles O25: one point has the empty product as its basis value, and with x_k = 0 the sum is its term of k. -/
theorem interpCornerCases : Obligations.InterpCornerCases := by
  intro m x y s hlow hhigh hread
  refine ⟨?_, fun hx k hk hzero => ?_⟩
  · rw [interpCompletes 1 x y s le_rfl (by omega) (fun i hi => hread i (by omega)) fun i j hi hj _ => by omega, xorSum_one,
      basisAt, gprod_succ, gprod_zero, if_pos rfl, gmul_one, gmul_one]
  · rw [interpCompletes m x y s hlow hhigh hread hx]
    congr 2
    obtain ⟨F, _, φ, hφ⟩ := exists_fieldEmbedding
    apply hφ.injective
    rw [hφ.map_xorSum, Finset.sum_eq_single_of_mem k (Finset.mem_range.2 hk)]
    · rw [basisAt_of_zero hx hk hzero, if_pos rfl, gmul_one]
    · intro i _ hik
      rw [basisAt_of_zero hx hk hzero, if_neg hik, gmul_zero_right, hφ.map_zero]

end

/-! ### Reconstruction (R149) -/

section

open Polynomial

variable {F : Type} [Field F] {φ : Byte → F}

/-- The polynomial over F with the coefficients c. -/
noncomputable def coefPoly (φ : Byte → F) (c : List Byte) : F[X] := ∑ i : Fin c.length, C (φ (c.getD i 0)) * X ^ i.val

theorem degree_coefPoly_lt (φ : Byte → F) (c : List Byte) : (coefPoly φ c).degree < c.length :=
  degree_sum_fin_lt fun i : Fin c.length => φ (c.getD i 0)

/-- PolyEval is its evaluation. -/
theorem FieldEmbedding.eval_coefPoly (hφ : FieldEmbedding φ) (c : List Byte) (x : Byte) :
    (coefPoly φ c).eval (φ x) = φ (polyEval c x) := by
  rw [hφ.map_polyEval, ← Fin.sum_univ_eq_sum_range fun i => φ (c.getD i 0) * φ x ^ i]
  simp [coefPoly, eval_finsetSum]

/-- The values of basisValue are those of Mathlib's basis polynomials at 0. -/
theorem eval_basis_zero (φ : Byte → F) (xs : Finset Byte) (xi : Byte) :
    (Lagrange.basis xs φ xi).eval 0 = basisValue φ xs xi := by
  rw [Lagrange.basis, eval_prod, basisValue]
  refine Finset.prod_congr rfl fun x _ => ?_
  rw [Lagrange.basisDivisor, eval_mul, eval_C, eval_sub, eval_X, eval_C, zero_sub, ← neg_sub (φ x), inv_neg, neg_mul_neg,
    div_eq_inv_mul]

/-- Over points of a polynomial with no more coefficients than there are points, Lagrange0 returns its value at 0. -/
theorem lagrange0_of_polynomial {c : List Byte} {p : List (Byte × Byte)} (hp : (p.map Prod.fst).Nodup)
    (hlen : c.length ≤ p.length) (hy : ∀ q ∈ p, q.2 = polyEval c q.1) : lagrange0 p = .ok (polyEval c 0x00) := by
  obtain ⟨F, _, φ, hφ⟩ := exists_fieldEmbedding
  obtain ⟨r, hr, hsum⟩ := lagrange0_of_nodup hφ hp
  have hcard : (p.map Prod.fst).toFinset.card = p.length := by
    rw [List.toFinset_card_of_nodup hp, List.length_map]
  have hinterpolate : coefPoly φ c =
      Lagrange.interpolate (p.map Prod.fst).toFinset φ fun x => (coefPoly φ c).eval (φ x) := by
    refine Lagrange.eq_interpolate hφ.injective.injOn ((degree_coefPoly_lt φ c).trans_le ?_)
    rw [hcard]
    exact_mod_cast hlen
  have hvalue : φ r = φ (polyEval c 0x00) :=
    calc φ r = (p.map fun q => φ (polyEval c q.1) * basisValue φ (p.map Prod.fst).toFinset q.1).sum := by
          rw [hsum, lagrangeSum]
          exact congrArg List.sum (List.map_congr_left fun q hq => by rw [hy q hq])
      _ = ∑ x ∈ (p.map Prod.fst).toFinset, φ (polyEval c x) * basisValue φ (p.map Prod.fst).toFinset x := by
          rw [List.sum_toFinset _ hp, List.map_map]
          rfl
      _ = (coefPoly φ c).eval 0 := by
          rw [hinterpolate, Lagrange.interpolate_apply, eval_finsetSum]
          simp only [eval_mul, eval_C, eval_basis_zero, hφ.eval_coefPoly]
      _ = φ (polyEval c 0x00) := by rw [← hφ.eval_coefPoly, hφ.map_zero]
  rw [hr, hφ.injective hvalue]

end

/-- Settles O26, by the uniqueness of the interpolating polynomial. -/
theorem interpReconstructs : Obligations.InterpReconstructs := by
  intro m c x s _ _ _ hlen hx hread
  refine exec_interp_of_ok (y := fun i => polyEval c (x i)) hread (lagrange0_of_polynomial ?_ (by simpa using hlen) ?_)
  · rw [map_fst_points]
    exact nodup_map_range_iff.2 hx
  · simp

/-! ### The error codes of a word (R201) -/

/-- ILLEGAL_COMMAND is a possible end of every word (R200, R201). -/
theorem illegalCommand_mem_possibleCodes (opc : BitVec 4) : ErrCode.illegalCommand.code ∈ possibleCodes opc := by
  unfold possibleCodes
  split <;> exact List.mem_cons_self

/-- The code of a failed command is the one that R201 lists for its opcode. -/
theorem execResult_error {m : Memory} {i : Instr} {c : ErrCode} (h : execResult m i = .ok (.error c)) :
    c.code ∈ possibleCodes (Laws.EncodedFields.opcode i) := by
  cases i with
  | add | mul => cases h
  | div a b =>
    by_cases hb : b = 0
    · rw [execResult, hb, gdiv_zero_right] at h
      cases h
      exact (by decide : ErrCode.divByZero.code ∈ possibleCodes 0x3)
    · rw [execResult_div hb] at h
      cases h
  | log a =>
    by_cases ha : a = 0
    · rw [execResult, if_pos ha] at h
      cases h
      exact (by decide : ErrCode.logOfZero.code ∈ possibleCodes 0x4)
    · rw [execResult_log ha] at h
      cases h
  | exp i =>
    by_cases hi : i < 255
    · rw [execResult_exp hi] at h
      cases h
    · rw [execResult, if_neg hi] at h
      cases h
      exact (by decide : ErrCode.expOutOfRange.code ∈ possibleCodes 0x5)
  | eval x d =>
    rw [execResult] at h
    cases hread : coefOperand m d <;> rw [hread] at h <;> cases h
  | interp n =>
    rw [execResult] at h
    cases hread : pointOperand m n with
    | error f => rw [hread] at h; cases h
    | ok p =>
      rw [hread] at h
      rw [lagrange0_error (Except.ok.inj h)]
      exact (by decide : ErrCode.duplicateCoordinate.code ∈ possibleCodes 0x7)

theorem wordResult_error {m : Memory} {w : Word} {c : ErrCode} (h : wordResult m w = .ok (.error c)) :
    c.code ∈ possibleCodes (fieldOPC w) := by
  cases hw : decode w with
  | error e =>
    rw [wordResult_of_error hw] at h
    cases h
    exact illegalCommand_mem_possibleCodes _
  | ok i =>
    obtain ⟨-, rfl⟩ := encode_of_decode hw
    rw [wordResult_of_ok hw] at h
    rw [fieldOPC_encode]
    exact execResult_error h

/-- Settles O33: the completion that sets ERR is the error entry with the code that the word's completion returns. -/
theorem errorCodesByOpcode : Obligations.ErrorCodesByOpcode := by
  intro s t w ts hp ht h herr
  rw [step_engine_pending hp ht, execWord_eq_complete] at h
  obtain ⟨v, -, rfl⟩ | ⟨c, hc, rfl⟩ := complete_next h
  · simp at herr
  · exact wordResult_error hc

end Sys2Proof.Machine
end

section
/-! The port: what the block answers to each access, by offset (20_memory.md R50 to R60, 60_exceptions.md R207), WAIT
(30_encoding.md R91), STATUS (10_state.md R24) and the reset (10_state.md R38, 70_reset_and_hazards.md R231). -/

namespace Sys2Proof.Machine

/-! ### The address map (R51) -/

section

variable {off : Offset}

theorem target_of_cmd (h : off.toNat = 0x000) : target off = .cmd := if_pos h

theorem target_of_status (h : off.toNat = 0x004) : target off = .status := by
  rw [target, if_neg (by omega), if_pos h]

theorem target_of_result (h : off.toNat = 0x008) : target off = .result := by
  rw [target, if_neg (by omega), if_neg (by omega), if_pos h]

theorem target_of_reserved (h : ReservedOffset off) : target off = .reserved := by
  obtain ⟨hlow, hhigh⟩ | hlow := h
  · rw [target, if_neg (by omega), if_neg (by omega), if_neg (by omega), if_pos (by omega)]
  · rw [target, if_neg (by omega), if_neg (by omega), if_neg (by omega), if_neg (by omega), if_neg (by omega),
      if_neg (by omega)]

/-- An aligned offset is CMD, STATUS, RESULT, reserved, or that of a buffer entry. -/
theorem aligned_cases (h : off.toNat % 4 = 0) :
    off.toNat = 0x000 ∨ off.toNat = 0x004 ∨ off.toNat = 0x008 ∨ ReservedOffset off ∨
      (∃ i, i < 256 ∧ off.toNat = 0x400 + 4 * i) ∨ ∃ i, i < 256 ∧ off.toNat = 0x800 + 4 * i := by
  by_cases hcoef : 0x400 ≤ off.toNat ∧ off.toNat < 0x800
  · exact .inr (.inr (.inr (.inr (.inl ⟨(off.toNat - 0x400) / 4, by omega, by omega⟩))))
  by_cases hpoint : 0x800 ≤ off.toNat ∧ off.toNat < 0xC00
  · exact .inr (.inr (.inr (.inr (.inr ⟨(off.toNat - 0x800) / 4, by omega, by omega⟩))))
  omega

theorem wordAccess_of_aligned (h : off.toNat % 4 = 0) : wordAccess off 4 = true := wordAccess_iff.2 ⟨rfl, h⟩

end

/-! ### Reads (R53 to R57, R60, R71) -/

section

variable {s : State} {off : Offset} {size : Nat}

theorem busRead_of_refused (h : ReadRefused off size) : busRead off size s = .ok .busError := by
  by_cases hw : wordAccess off size = true
  · obtain ⟨hsize, halign⟩ := wordAccess_iff.1 hw
    obtain hbad | hbad | hreserved | hcmd := h
    · exact absurd hsize hbad
    · exact absurd halign hbad
    · simp only [busRead, hw, if_true, target_of_reserved hreserved]
    · simp only [busRead, hw, if_true, target_of_cmd hcmd]
  · rw [busRead, if_neg hw]

theorem busRead_status (h : off.toNat = 0x004) : busRead off 4 s = .ok (.readOkay s.statusWord) := by
  simp only [busRead, wordAccess_of_aligned (off := off) (by omega), if_true, target_of_status h]

theorem busRead_result (h : off.toNat = 0x008) : busRead off 4 s = .ok (.readOkay (s.rval.setWidth 32)) := by
  simp only [busRead, wordAccess_of_aligned (off := off) (by omega), if_true, target_of_result h]
  rfl

variable {i : Nat} (hi : i < 256)

include hi

theorem busRead_coef (h : off.toNat = 0x400 + 4 * i) {c : Byte} (hread : s.mem.coef.read i = some c) :
    busRead off 4 s = .ok (.readOkay (coefWord c)) := by
  simp only [busRead, wordAccess_of_aligned (off := off) (by omega), if_true, target_of_coef hi h, hread]

theorem busRead_coef_unwritten (h : off.toNat = 0x400 + 4 * i) (hread : s.mem.coef.read i = none) :
    busRead off 4 s = .error (.unwrittenCoef i) := by
  simp only [busRead, wordAccess_of_aligned (off := off) (by omega), if_true, target_of_coef hi h, hread]

theorem busRead_point (h : off.toNat = 0x800 + 4 * i) {p : Byte × Byte} (hread : s.mem.point.read i = some p) :
    busRead off 4 s = .ok (.readOkay (pointWord p)) := by
  simp only [busRead, wordAccess_of_aligned (off := off) (by omega), if_true, target_of_point hi h, hread]

theorem busRead_point_unwritten (h : off.toNat = 0x800 + 4 * i) (hread : s.mem.point.read i = none) :
    busRead off 4 s = .error (.unwrittenPoint i) := by
  simp only [busRead, wordAccess_of_aligned (off := off) (by omega), if_true, target_of_point hi h, hread]

end

section

variable {s : State} {off : Offset} {size : Nat}

/-- A read that is not refused answers a word, but on an unwritten entry. -/
theorem busRead_of_accepted (h : ¬ ReadRefused off size) :
    (∃ v, busRead off size s = .ok (.readOkay v)) ∨
    (∃ i, i < 256 ∧ off.toNat = 0x400 + 4 * i ∧ s.mem.coef.read i = none ∧
      busRead off size s = .error (.unwrittenCoef i)) ∨
    ∃ i, i < 256 ∧ off.toNat = 0x800 + 4 * i ∧ s.mem.point.read i = none ∧
      busRead off size s = .error (.unwrittenPoint i) := by
  simp only [ReadRefused, not_or, not_not] at h
  obtain ⟨rfl, halign, hreserved, hcmd⟩ := h
  obtain h0 | hstatus | hresult | hres | ⟨i, hi, hoff⟩ | ⟨i, hi, hoff⟩ := aligned_cases halign
  · exact absurd h0 hcmd
  · exact .inl ⟨_, busRead_status hstatus⟩
  · exact .inl ⟨_, busRead_result hresult⟩
  · exact absurd hres (not_or.2 hreserved)
  · cases hread : s.mem.coef.read i with
    | some c => exact .inl ⟨_, busRead_coef hi hoff hread⟩
    | none => exact .inr (.inl ⟨i, hi, hoff, hread, busRead_coef_unwritten hi hoff hread⟩)
  · cases hread : s.mem.point.read i with
    | some p => exact .inl ⟨_, busRead_point hi hoff hread⟩
    | none => exact .inr (.inr ⟨i, hi, hoff, hread, busRead_point_unwritten hi hoff hread⟩)

/-! ### Writes (R53 to R59) -/

theorem busWrite_of_refused {v : Word} (h : WriteRefused s off size) : busWrite off size v s = none := by
  by_cases hw : wordAccess off size = true
  · obtain ⟨hsize, halign⟩ := wordAccess_iff.1 hw
    obtain hbad | hbad | hreserved | hstatus | hresult | ⟨hp, -⟩ := h
    · exact absurd hsize hbad
    · exact absurd halign hbad
    · simp only [busWrite, hw, if_true, target_of_reserved hreserved]
    · simp only [busWrite, hw, if_true, target_of_status hstatus]
    · simp only [busWrite, hw, if_true, target_of_result hresult]
    · exact busWrite_of_pending hp off size v
  · rw [busWrite, if_neg hw]

theorem busy_of_idle (hp : s.pend = none) : s.busy = false := by rw [State.busy, hp]; rfl

theorem busWrite_coef_of_idle {v : Word} {i : Nat} (hp : s.pend = none) (hi : i < 256) (h : off.toNat = 0x400 + 4 * i) :
    busWrite off 4 v s = some (s.setCoef i (byteLane v 0)) := by
  simp only [busWrite, wordAccess_of_aligned (off := off) (by omega), if_true, target_of_coef hi h, busy_of_idle hp,
    Bool.false_eq_true, if_false]

theorem busWrite_point_of_idle {v : Word} {i : Nat} (hp : s.pend = none) (hi : i < 256) (h : off.toNat = 0x800 + 4 * i) :
    busWrite off 4 v s = some (s.setPoint i (byteLane v 1) (byteLane v 0)) := by
  simp only [busWrite, wordAccess_of_aligned (off := off) (by omega), if_true, target_of_point hi h, busy_of_idle hp,
    Bool.false_eq_true, if_false]

/-- A write that is not refused is accepted: it is to CMD or to an entry, and nothing is pending. -/
theorem busWrite_of_accepted {v : Word} (h : ¬ WriteRefused s off size) : ∃ t, busWrite off size v s = some t := by
  simp only [WriteRefused, not_or, not_and, not_not, ne_eq] at h
  obtain ⟨rfl, halign, hreserved, hstatus, hresult, hlock⟩ := h
  have hidle (hrange : off.toNat = 0x000 ∨ (0x400 ≤ off.toNat ∧ off.toNat ≤ 0xBFF)) : s.pend = none := by
    by_contra hp
    obtain ⟨hcmd, hbuffers⟩ := hlock hp
    exact hrange.elim hcmd fun ⟨hlow, hhigh⟩ => hbuffers hlow hhigh
  obtain h0 | h4 | h8 | hres | ⟨i, hi, hoff⟩ | ⟨i, hi, hoff⟩ := aligned_cases halign
  · rw [show off = 0x000 from BitVec.eq_of_toNat_eq h0]
    exact ⟨_, busWrite_cmd_of_idle (hidle (.inl h0)) v⟩
  · exact absurd h4 hstatus
  · exact absurd h8 hresult
  · omega
  · exact ⟨_, busWrite_coef_of_idle (hidle (.inr (by omega))) hi hoff⟩
  · exact ⟨_, busWrite_point_of_idle (hidle (.inr (by omega))) hi hoff⟩

end

/-! ### The host's turn (R63) -/

section

variable {s : State} {ts : List Turn} {rest : List HostStmt}

/-- At its turn an unmarked host performs its first statement. -/
theorem step_host {st : HostStmt} (hf : s.faulted = false) (ht : s.turns = .host :: ts) (hh : s.host = st :: rest) :
    step s = hostDo st { s with turns := ts } := by
  have hstep : step s = hostStep { s with turns := ts } := by simp only [step, ht]
  rw [hstep, hostStep_cons (s := { s with turns := ts }) hf hh]

/-- A response to the first statement of an unmarked host: only BUS_ERROR marks it. -/
theorem respond_of_cons {st : HostStmt} (hf : s.faulted = false) (hh : s.host = st :: rest) (r : BusResp) :
    State.respond r { s with turns := ts } =
      { s with turns := ts, host := rest, resp := some r, faulted := decide (r = .busError) } := by
  simp [State.respond, hh, hf]

theorem step_host_wait_idle (hf : s.faulted = false) (ht : s.turns = .host :: ts) (hh : s.host = .wait :: rest)
    (hp : s.pend = none) :
    step s = .next { s with turns := ts, host := rest, resp := some (.readOkay s.statusWord) } := by
  rw [step_host hf ht hh, hostDo, if_neg (by simp [State.busy, hp]), respond_of_cons hf hh]
  simp only [reduceCtorEq, decide_false, ← hf]
  rfl

theorem step_host_wait_busy (hf : s.faulted = false) (ht : s.turns = .host :: ts) (hh : s.host = .wait :: rest)
    (hp : s.pend ≠ none) :
    step s = .next { s with turns := ts, resp := some (.readOkay s.statusWord) } := by
  rw [step_host hf ht hh, hostDo, if_pos (by simpa [State.busy, Option.isSome_iff_ne_none] using hp)]
  rfl

/-- Settles O40: WAIT is finished by the read of STATUS that finds nothing pending. -/
theorem waitPollsBusy : Obligations.WaitPollsBusy :=
  fun _ _ _ hf ht hh => ⟨step_host_wait_busy hf ht hh, step_host_wait_idle hf ht hh⟩

variable {off : Offset} {size : Nat}

section

variable (hf : s.faulted = false) (ht : s.turns = .host :: ts) (hh : s.host = .read (busAddress off) size :: rest)

include hf ht hh

theorem step_host_read : step s = hostRead off size { s with turns := ts } := by
  rw [step_host hf ht hh, hostDo_read]

/-- A read that the port answers. -/
theorem step_host_read_of_ok {r : BusResp} (h : busRead off size s = .ok r) :
    step s = .next { s with turns := ts, host := rest, resp := some r, faulted := decide (r = .busError) } := by
  have h' : busRead off size { s with turns := ts } = .ok r := h
  rw [step_host_read hf ht hh, hostRead, h']
  exact congrArg Host.Outcome.next (respond_of_cons hf hh r)

/-- A read with the answer OKAY leaves the host unmarked. -/
theorem step_host_read_of_okay {v : Word} (h : busRead off size s = .ok (.readOkay v)) :
    step s = .next { s with turns := ts, host := rest, resp := some (.readOkay v) } := by
  rw [step_host_read_of_ok hf ht hh h]
  simp only [reduceCtorEq, decide_false, ← hf]

theorem step_host_read_of_fault {f : Fault} (h : busRead off size s = .error f) : step s = .fault f := by
  have h' : busRead off size { s with turns := ts } = .error f := h
  rw [step_host_read hf ht hh, hostRead, h']

end

/-- A write that the port accepts. -/
theorem step_host_write_of_accepted {v : Word} {t : State} (hf : s.faulted = false) (ht : s.turns = .host :: ts)
    (hh : s.host = .write (busAddress off) size v :: rest) (h : busWrite off size v { s with turns := ts } = some t) :
    step s = .next (t.respond .writeOkay) := by
  rw [step_host_write hf ht hh, hostWrite_of_accepted h]

end

/-- An accepted write leaves the host's side and the schedule as they are. -/
theorem busWrite_host_side {s t : State} {off : Offset} {size : Nat} {v : Word} (h : busWrite off size v s = some t) :
    t.host = s.host ∧ t.turns = s.turns ∧ t.faulted = s.faulted := by
  obtain ⟨-, -, ⟨-, rfl⟩ | ⟨i, -, rfl⟩ | ⟨i, -, rfl⟩⟩ := busWrite_cases h <;> exact ⟨rfl, rfl, rfl⟩

/-- Settles O37, by the port's answers to refused and to accepted accesses. -/
theorem busErrorExactly : Obligations.BusErrorExactly := by
  intro s off size ts rest hf ht
  refine ⟨fun hh => ⟨fun hrefused => ?_, fun haccepted => ?_⟩, fun v hh => ⟨fun hrefused => ?_, fun haccepted => ?_⟩⟩
  · exact step_host_read_of_ok hf ht hh (busRead_of_refused hrefused)
  · refine (busRead_of_accepted (s := s) haccepted).imp ?_ (Or.imp ?_ ?_)
    · exact fun ⟨v, h⟩ => ⟨v, step_host_read_of_okay hf ht hh h⟩
    · exact fun ⟨i, hi, hoff, hnone, h⟩ => ⟨i, hi, hoff, hnone, step_host_read_of_fault hf ht hh h⟩
    · exact fun ⟨i, hi, hoff, hnone, h⟩ => ⟨i, hi, hoff, hnone, step_host_read_of_fault hf ht hh h⟩
  · rw [step_host_write hf ht hh, hostWrite_of_refused (busWrite_of_refused (s := { s with turns := ts }) hrefused),
      respond_of_cons hf hh]
    rfl
  · obtain ⟨t, hwrite⟩ := busWrite_of_accepted (s := { s with turns := ts }) (v := v) haccepted
    obtain ⟨hhost, hturns, hfaulted⟩ := busWrite_host_side hwrite
    refine ⟨_, step_host_write_of_accepted hf ht hh hwrite, rfl, ?_, ?_, hturns⟩
    · simp [hfaulted, hf]
    · simp [hhost, hh]

/-- The POINT word has PX above PY and zeros above (R57). -/
theorem pointWord_eq (x y : Byte) : pointWord (x, y) = (0 : BitVec 16) ++ x ++ y := by
  apply BitVec.eq_of_toNat_eq
  have hx := x.isLt
  have hy := y.isLt
  simp only [pointWord, BitVec.toNat_setWidth, toNat_append_eq]
  simp
  omega

/-- Settles O38, by the port's answer at each offset. -/
theorem readsReturnContents : Obligations.ReadsReturnContents := by
  intro s off ts rest hf ht hh
  refine ⟨fun h => ?_, fun h => ?_, fun i hi h => ⟨fun c hread => ?_, fun hnone => ?_⟩,
    fun i hi h => ⟨fun x y hread => ?_, fun hnone => ?_⟩⟩
  · exact step_host_read_of_okay hf ht hh (busRead_status h)
  · exact step_host_read_of_okay hf ht hh (busRead_result h)
  · exact step_host_read_of_okay hf ht hh (busRead_coef hi h hread)
  · exact step_host_read_of_fault hf ht hh (busRead_coef_unwritten hi h hnone)
  · rw [← pointWord_eq]
    exact step_host_read_of_okay hf ht hh (busRead_point hi h hread)
  · exact step_host_read_of_fault hf ht hh (busRead_point_unwritten hi h hnone)

/-- Settles O39: the entry reads as written and the others as before. -/
theorem writesStoreOneEntry : Obligations.WritesStoreOneEntry := by
  intro s off v ts rest i hf hp ht hh hi
  refine ⟨fun h => ⟨s.mem.coef.write i (byteLane v 0), ?_, Buffer.read_write_same _ _ _,
      fun j hj => Buffer.read_write_other _ _ hj⟩,
    fun h => ⟨s.mem.point.write i (byteLane v 1, byteLane v 0), ?_, Buffer.read_write_same _ _ _,
      fun j hj => Buffer.read_write_other _ _ hj⟩⟩
  · rw [step_host_write_of_accepted hf ht hh (busWrite_coef_of_idle (s := { s with turns := ts }) hp hi h)]
    simp [State.respond, State.setCoef, hh, hf]
  · rw [step_host_write_of_accepted hf ht hh (busWrite_point_of_idle (s := { s with turns := ts }) hp hi h)]
    simp [State.respond, State.setPoint, hh, hf]

/-- Settles O59: such an address is no GF_BASE + off, so the port sees no access. -/
theorem accessOutsideWindowPassesBy : Obligations.AccessOutsideWindowPassesBy := by
  intro s addr size ts rest hf ht haddr hh
  have hout : windowOffset addr = none := if_neg (by simp only [Config.windowBytes]; omega)
  obtain hh | ⟨v, hh⟩ := hh
  · rw [step_host hf ht hh]
    simp [hostDo, hout, State.passBy, hh]
  · rw [step_host hf ht hh]
    simp [hostDo, hout, State.passBy, hh]

/-! ### STATUS and reset (R24, R38, R231) -/

/-- STATUS as a number: the four fields at their places, and nothing else. -/
theorem statusWord_toNat (s : State) :
    s.statusWord.toNat = s.errcode.toNat * 256 + s.err.toNat * 4 + s.done.toNat * 2 + s.busy.toNat := by
  simp only [State.statusWord, toNat_append_eq, BitVec.toNat_ofBool]
  simp
  omega

/-- Settles O35: each field is the quotient and remainder of that number at its place. -/
theorem statusWordFields : Obligations.StatusWordFields := by
  intro s
  have hword := statusWord_toNat s
  have herr := s.err.toNat_lt
  have hdone := s.done.toNat_lt
  have hbusy := s.busy.toNat_lt
  have hcode := s.errcode.isLt
  have hbit {b : Bool} {k : Nat} (h : s.statusWord.toNat / 2 ^ k % 2 = b.toNat) : s.statusWord.getLsbD k = b := by
    rw [BitVec.getLsbD, Nat.testBit_eq_decide_div_mod_eq, h]
    cases b <;> rfl
  refine ⟨hbit (b := s.busy) ?_, hbit ?_, hbit ?_, ?_, ?_, ?_⟩
  · omega
  · omega
  · omega
  all_goals
    apply BitVec.eq_of_toNat_eq
    rw [BitVec.extractLsb'_toNat, Nat.shiftRight_eq_div_pow, hword]
    simp
    omega

/-- Settles O41: the reset state lists its fields. -/
theorem resetValues : Obligations.ResetValues := ⟨rfl, rfl, rfl, fun _ => rfl, fun _ => rfl⟩

/-- Settles O42: at its turn the reset event puts the reset state in the place of the block's. -/
theorem resetEventRestoresBlock : Obligations.ResetEventRestoresBlock := by
  intro s ts ht
  simp only [step, ht]
  rfl

end Sys2Proof.Machine
end

section
/-! Runs: a pending command completes under every schedule, and what a host program reaches does not depend on the schedule
(20_memory.md R63, 70_reset_and_hazards.md R237, R238, R242, R243; 42_host_procedures.md R173, R176). -/

namespace Sys2Proof.Machine

/-! ### A pending command completes (R243) -/

theorem Moved.turns {s t : State} (h : Moved s t) : t.turns = s.turns.tail := by cases h <;> rfl

theorem run_one_of_next {s t : State} (h : step s = .next t) : Host.Core.run core 1 s = .next t := run_of_next h

/-- A completion with a next state leaves nothing pending and sets DONE. -/
theorem execWord_next {s t : State} {w : Word} (h : execWord w s = .next t) : t.pend = none ∧ t.done = true := by
  rw [execWord_eq_complete] at h
  obtain ⟨v, -, rfl⟩ | ⟨c, -, rfl⟩ := complete_next h <;> exact ⟨rfl, rfl⟩

/-- How a run that begins with a pending command can stand: it has faulted on an unwritten entry, the command has
completed, or a reset of the schedule has abandoned it. -/
def Settled (s : State) (o : Host.Outcome State Fault Refusal) : Prop :=
  (∃ f, o = .fault f ∧ f.NamesUnwritten s.mem) ∨
    ∃ t, o = .next t ∧ t.pend = none ∧ (t.done = true ∨ .reset ∈ s.turns)

/-- One step after the schedule ends at the latest, the command has settled: each turn is taken off the schedule, and an
empty schedule is the engine's (log entry 1). -/
theorem pending_settles {s : State} {w : Word} (hp : s.pend = some w) :
    ∃ k, k ≤ s.turns.length + 1 ∧ Settled s (Host.Core.run core k s) := by
  generalize hts : s.turns = ts
  induction ts generalizing s with
  | nil =>
    refine ⟨1, le_rfl, ?_⟩
    obtain ⟨t, h⟩ | ⟨f, h, hf⟩ := step_goesOnOrUnwritten s
    · obtain ⟨hpend, hdone⟩ := execWord_next ((step_pending_of_nil hp hts).symm.trans h)
      exact .inr ⟨t, run_one_of_next h, hpend, .inl hdone⟩
    · exact .inl ⟨f, run_of_fault h, hf⟩
  | cons a ts ih =>
    obtain ⟨t, h⟩ | ⟨f, h, hf⟩ := step_goesOnOrUnwritten s
    case inr => exact ⟨1, by simp, .inl ⟨f, run_of_fault h, hf⟩⟩
    by_cases hreset : a = .reset
    · subst hreset
      refine ⟨1, by simp, .inr ⟨t, run_one_of_next h, ?_, .inr (by simp [hts])⟩⟩
      rw [resetEventRestoresBlock s ts hts] at h
      cases h
      rfl
    · obtain ⟨hmem, hpend | ⟨hpend, hdone⟩⟩ := pendingCommandIsStable s t w hp (by simpa [hts] using hreset) h
      · have htail : t.turns = ts := by rw [(step_moved h).turns, hts, List.tail_cons]
        obtain ⟨k, hk, hsettled⟩ := ih hpend htail
        refine ⟨k + 1, by simpa using hk, ?_⟩
        rw [run_of_next h]
        refine hsettled.imp (fun ⟨f, hf, hnames⟩ => ⟨f, hf, hmem ▸ hnames⟩) fun ⟨u, hu, hnone, hend⟩ => ⟨u, hu, hnone, ?_⟩
        exact hend.imp_right fun hin => by rw [hts, ← htail]; exact List.mem_cons_of_mem _ hin
      · exact ⟨1, by simp, .inr ⟨t, run_one_of_next h, hpend, .inl hdone⟩⟩

/-- Settles O51, by the ways a pending command settles. -/
theorem pendingCommandCompletes : Obligations.PendingCommandCompletes := by
  intro s w hp
  obtain ⟨k, hk, hsettled⟩ := pending_settles hp
  refine ⟨fun hno => ⟨k, hk, ?_⟩, k, hk, ?_⟩
  · obtain ⟨f, hf, ⟨i, rfl, -, hnone⟩ | ⟨i, rfl, -, hnone⟩⟩ | ⟨t, ht, hpend, hend⟩ := hsettled
    · exact .inl ⟨i, hnone, hf⟩
    · exact .inr (.inl ⟨i, hnone, hf⟩)
    · exact .inr (.inr ⟨t, ht, hpend, hend.resolve_right hno⟩)
  · exact hsettled.imp (fun ⟨f, hf, _⟩ => ⟨f, hf⟩) fun ⟨t, ht, hpend, _⟩ => ⟨t, ht, hpend⟩

/-! ### Reaching a state under every schedule (R63) -/

/-- Under every schedule without a reset a run from s comes to t, with at most `cost` more steps than the turns it takes
off the schedule. -/
def Reaches (cost : Nat) (s t : State) : Prop :=
  ∀ schedule, Turn.reset ∉ schedule → ∃ rest j, Turn.reset ∉ rest ∧ j + rest.length ≤ schedule.length + cost ∧
    Host.Core.run core j { s with turns := schedule } = .next { t with turns := rest }

section

variable {s t u : State}

theorem run_add_of_next {j k : Nat} (h : Host.Core.run core j s = .next t) :
    Host.Core.run core (j + k) s = Host.Core.run core k t := by
  induction j generalizing s with
  | zero => cases h; rw [Nat.zero_add]
  | succ j ih =>
    obtain ⟨v, hv⟩ | ⟨f, hf, -⟩ := step_goesOnOrUnwritten s
    · rw [run_of_next hv] at h
      rw [Nat.succ_add, run_of_next hv, ih h]
    · rw [run_of_fault hf] at h
      cases h

theorem Reaches.trans {m n : Nat} (h : Reaches m s t) (h' : Reaches n t u) : Reaches (m + n) s u := by
  intro schedule hno
  obtain ⟨rest, j, hrest, hj, hrun⟩ := h schedule hno
  obtain ⟨rest', k, hrest', hk, hrun'⟩ := h' rest hrest
  exact ⟨rest', j + k, hrest', by omega, (run_add_of_next hrun).trans hrun'⟩

theorem Reaches.refl (s : State) : Reaches 0 s s := fun schedule hno => ⟨schedule, 0, hno, by omega, rfl⟩

/-- The engine's turn leaves an idle block alone. -/
theorem step_engine_idle {ts : List Turn} (hp : s.pend = none) :
    step { s with turns := .engine :: ts } = .next { s with turns := ts } := by
  simp [step, engineStep, hp]

/-- With an empty schedule and nothing pending the host goes on (log entry 1). -/
theorem step_idle_of_nil (hp : s.pend = none) : step { s with turns := [] } = hostStep { s with turns := [] } := by
  simp [step, State.busy, hp]

/-- While nothing is pending, the host's next access is made under every schedule. -/
theorem Reaches.of_hostStep (hp : s.pend = none)
    (h : ∀ ts, hostStep { s with turns := ts } = .next { t with turns := ts }) : Reaches 1 s t := by
  intro schedule hno
  induction schedule with
  | nil => exact ⟨[], 1, hno, le_rfl, run_one_of_next ((step_idle_of_nil hp).trans (h []))⟩
  | cons a ts ih =>
    obtain ⟨hne, hts⟩ := List.ne_and_not_mem_of_not_mem_cons hno
    cases a with
    | host => exact ⟨ts, 1, hts, by rw [List.length_cons]; omega, run_one_of_next (h ts)⟩
    | engine =>
      obtain ⟨rest, j, hrest, hj, hrun⟩ := ih hts
      exact ⟨rest, j + 1, hrest, by rw [List.length_cons]; omega, (run_of_next (step_engine_idle hp)).trans hrun⟩
    | reset => exact absurd rfl hne

/-- A program that is at its end stays there, while the turns that are left pass. -/
theorem run_of_finished (hp : t.pend = none) (hh : t.host = []) {n : Nat} {rest : List Turn}
    (hno : Turn.reset ∉ rest) (hn : rest.length ≤ n) :
    Host.Core.run core n { t with turns := rest } = .next { t with turns := [] } := by
  have hhost (ts : List Turn) : hostStep { t with turns := ts } = .next { t with turns := ts } := by
    simp [hostStep, hh]
  induction n generalizing rest with
  | zero => rw [List.eq_nil_of_length_eq_zero (Nat.le_zero.1 hn)]; rfl
  | succ n ih =>
    cases rest with
    | nil => rw [run_of_next ((step_idle_of_nil hp).trans (hhost []))]; exact ih hno (Nat.zero_le _)
    | cons a ts =>
      obtain ⟨hne, hts⟩ := List.ne_and_not_mem_of_not_mem_cons hno
      have hn' : ts.length ≤ n := Nat.le_of_succ_le_succ hn
      cases a with
      | host => rw [run_of_next (s := { t with turns := .host :: ts }) (hhost ts)]; exact ih hts hn'
      | engine => rw [run_of_next (step_engine_idle hp)]; exact ih hts hn'
      | reset => exact absurd rfl hne

/-- A program that is done at t ends there, whatever the schedule. -/
theorem Reaches.run_eq {cost : Nat} (h : Reaches cost s t) (hp : t.pend = none) (hh : t.host = []) {schedule : List Turn}
    (hno : Turn.reset ∉ schedule) :
    Host.Core.run core (schedule.length + cost) { s with turns := schedule } = .next { t with turns := [] } := by
  obtain ⟨rest, j, hrest, hj, hrun⟩ := h schedule hno
  obtain ⟨n, hn⟩ := Nat.exists_eq_add_of_le hj
  rw [hn, Nat.add_assoc, run_add_of_next hrun]
  exact run_of_finished hp hh hrest (Nat.le_add_right _ _)

end

/-! ### Issue, WAIT and the read of RESULT (R35, R36, R91) -/

/-- s after the completion with what Execute returned: one of the two ends of R36. -/
def State.afterResult (s : State) : Except ErrCode Byte → State
  | .ok v => s.afterSuccess v
  | .error c => s.afterError c.code

section

variable {s : State} (r : Except ErrCode Byte)

theorem finish_eq_afterResult (s : State) : finish r s = .next (s.afterResult r) := by cases r <;> rfl

@[simp] theorem State.afterResult_pend : (s.afterResult r).pend = none := by cases r <;> rfl
@[simp] theorem State.afterResult_done : (s.afterResult r).done = true := by cases r <;> rfl
@[simp] theorem State.afterResult_faulted : (s.afterResult r).faulted = s.faulted := by cases r <;> rfl

variable {r} {w : Word} {rest : List HostStmt}

theorem execWord_of_wordResult (h : wordResult s.mem w = .ok r) : execWord w s = .next (s.afterResult r) := by
  rw [execWord_eq_complete, h]
  exact finish_eq_afterResult r s

/-- The host's WAIT at an idle block, as the host's step. -/
theorem Reaches.wait (hf : s.faulted = false) (hp : s.pend = none) (hh : s.host = .wait :: rest) :
    Reaches 1 s { s with host := rest, resp := some (.readOkay s.statusWord) } := by
  refine .of_hostStep hp fun ts => ?_
  rw [hostStep_cons (s := { s with turns := ts }) hf hh, hostDo, if_neg (by simp [State.busy, hp]), respond_of_cons hf hh]
  simp only [reduceCtorEq, decide_false, ← hf]
  rfl

/-- A host that waits for a pending command finds STATUS of the completion, whenever that comes: the polls before it
leave only a response, which the last one replaces. -/
theorem Reaches.completion (hf : s.faulted = false) (hp : s.pend = some w) (hh : s.host = .wait :: rest)
    (hr : wordResult s.mem w = .ok r) :
    Reaches 2 s { s.afterResult r with host := rest, resp := some (.readOkay (s.afterResult r).statusWord) } := by
  have hengine (resp : Option BusResp) (ts : List Turn) :
      execWord w { s with turns := ts, resp := resp } = .next { s.afterResult r with turns := ts, resp := resp } := by
    rw [execWord_of_wordResult (s := { s with turns := ts, resp := resp }) hr]
    cases r <;> rfl
  have hwait (resp : Option BusResp) : Reaches 1 { s.afterResult r with resp := resp }
      { s.afterResult r with host := rest, resp := some (.readOkay (s.afterResult r).statusWord) } :=
    Reaches.wait (s := { s.afterResult r with resp := resp }) (by simpa using hf) (State.afterResult_pend r)
      (by cases r <;> exact hh)
  have hpolls (schedule : List Turn) (hno : Turn.reset ∉ schedule) (resp : Option BusResp) :
      ∃ rest' j, Turn.reset ∉ rest' ∧ j + rest'.length ≤ schedule.length + 2 ∧
        Host.Core.run core j { s with turns := schedule, resp := resp } =
          .next { s.afterResult r with
            host := rest, turns := rest', resp := some (.readOkay (s.afterResult r).statusWord) } := by
    induction schedule generalizing resp with
    | nil =>
      obtain ⟨rest', j, hrest', hj, hrun⟩ := hwait resp [] hno
      have hstep := (step_pending_of_nil (s := { s with turns := [], resp := resp }) hp rfl).trans (hengine resp [])
      exact ⟨rest', j + 1, hrest', by omega, (run_of_next hstep).trans hrun⟩
    | cons a ts ih =>
      obtain ⟨hne, hts⟩ := List.ne_and_not_mem_of_not_mem_cons hno
      rw [List.length_cons]
      cases a with
      | engine =>
        obtain ⟨rest', j, hrest', hj, hrun⟩ := hwait resp ts hts
        have hstep :=
          (step_engine_pending (s := { s with turns := .engine :: ts, resp := resp }) hp rfl).trans (hengine resp ts)
        exact ⟨rest', j + 1, hrest', by omega, (run_of_next hstep).trans hrun⟩
      | host =>
        obtain ⟨rest', j, hrest', hj, hrun⟩ := ih hts (some (.readOkay s.statusWord))
        have hstep := step_host_wait_busy (s := { s with turns := .host :: ts, resp := resp }) hf rfl hh (by simp [hp])
        exact ⟨rest', j + 1, hrest', by omega, (run_of_next hstep).trans hrun⟩
      | reset => exact absurd rfl hne
  exact fun schedule hno => hpolls schedule hno s.resp

/-- An accepted write of the host, under every schedule. -/
theorem Reaches.write {t : State} {off : Offset} {v : Word} (hf : s.faulted = false) (hp : s.pend = none)
    (hh : s.host = .write (busAddress off) 4 v :: rest)
    (hwrite : ∀ ts, busWrite off 4 v { s with turns := ts } = some { t with turns := ts }) :
    Reaches 1 s { t with host := rest, resp := some .writeOkay } := by
  obtain ⟨hhost, -, hfaulted⟩ := busWrite_host_side (hwrite [])
  refine .of_hostStep hp fun ts => ?_
  rw [hostStep_cons (s := { s with turns := ts }) hf hh, hostDo_write, hostWrite_of_accepted (hwrite ts),
    respond_of_cons (hfaulted.trans hf) (hhost.trans hh)]
  simp only [reduceCtorEq, decide_false, ← hfaulted.trans hf]

/-- The host's read of RESULT, under every schedule. -/
theorem Reaches.readResult (hf : s.faulted = false) (hp : s.pend = none)
    (hh : s.host = .read (busAddress 0x008) 4 :: rest) :
    Reaches 1 s { s with host := rest, resp := some (.readOkay (s.rval.setWidth 32)) } := by
  refine .of_hostStep hp fun ts => ?_
  rw [hostStep_cons (s := { s with turns := ts }) hf hh, hostDo_read, hostRead, busRead_result rfl]
  exact congrArg Host.Outcome.next ((respond_of_cons hf hh _).trans (by simp [hf]))

/-- Issue, WAIT and the read of RESULT, under every schedule: the completion, and RESULT as the word read. -/
theorem Reaches.command (hf : s.faulted = false) (hp : s.pend = none)
    (hh : s.host = .write (busAddress 0x000) 4 w :: .wait :: .read (busAddress 0x008) 4 :: rest)
    (hr : wordResult s.mem w = .ok r) :
    Reaches 4 s
      { s.afterResult r with host := rest, resp := some (.readOkay ((s.afterResult r).rval.setWidth 32)) } := by
  have hissue := Reaches.write (t := s.issue w) hf hp hh fun ts => busWrite_cmd_of_idle (s := { s with turns := ts }) hp w
  have hcompletion := Reaches.completion hf rfl rfl hr (s := { s.issue w with
    host := .wait :: .read (busAddress 0x008) 4 :: rest, resp := some .writeOkay })
  have hread := Reaches.readResult (s := { s.afterResult r with
    host := .read (busAddress 0x008) 4 :: rest, resp := some (.readOkay (s.afterResult r).statusWord) })
    (by simpa using hf) (State.afterResult_pend r) rfl
  cases r <;> exact (hissue.trans hcompletion).trans hread

/-- A completion that answers the next state t makes t with what Execute returned. -/
theorem exists_result_of_execWord {t : State} (h : execWord w s = .next t) :
    ∃ r, wordResult s.mem w = .ok r ∧ t = s.afterResult r := by
  rw [execWord_eq_complete] at h
  obtain ⟨v, hv, rfl⟩ | ⟨c, hc, rfl⟩ := complete_next h
  · exact ⟨.ok v, hv, rfl⟩
  · exact ⟨.error c, hc, rfl⟩

end

/-- Settles O52: the host's three statements reach the state of the completion under every schedule. -/
theorem resultIndependentOfLatency : Obligations.ResultIndependentOfLatency := by
  intro s u w schedule hp hf hno h
  obtain ⟨r, hr, rfl⟩ := exists_result_of_execWord h
  refine ⟨State.afterResult_pend r, State.afterResult_done r, fun herr => ?_, ?_⟩
  · cases r with
    | ok v => cases herr
    | error c => rfl
  · have hreach := Reaches.command (rest := []) (r := r) hf hp rfl hr
      (s := { s with host := [.write (busAddress 0x000) 4 w, .wait, .read (busAddress 0x008) 4] })
    rw [hreach.run_eq (State.afterResult_pend r) rfl hno]
    cases r <;> rfl

/-! ### Loading a buffer (R57, R91) -/

section

variable {α : Type}

/-- The buffer after writes of the values vs to the entries from i on. -/
def Buffer.storeFrom (b : Buffer α) (i : Nat) : List α → Buffer α
  | [] => b
  | v :: vs => Buffer.storeFrom (b.write i v) (i + 1) vs

/-- The writes from i on leave the entries below i alone. -/
theorem Buffer.read_storeFrom_of_lt {b : Buffer α} {i j : Nat} (hj : j < i) (vs : List α) :
    (Buffer.storeFrom b i vs).read j = b.read j := by
  induction vs generalizing b i with
  | nil => rfl
  | cons v vs ih => rw [storeFrom, ih (by omega), Buffer.read_write_other _ _ (by omega)]

/-- The entries written read as written. -/
theorem Buffer.read_storeFrom (b : Buffer α) (i : Nat) {vs : List α} {j : Nat} (hj : j < vs.length) :
    (Buffer.storeFrom b i vs).read (i + j) = vs[j]? := by
  induction vs generalizing b i j with
  | nil => simp at hj
  | cons v vs ih =>
    cases j with
    | zero => exact (Buffer.read_storeFrom_of_lt (Nat.lt_add_one i) vs).trans (Buffer.read_write_same b i v)
    | succ j =>
      rw [storeFrom, show i + (j + 1) = i + 1 + j by omega, ih _ _ (Nat.lt_of_succ_lt_succ hj)]
      rfl

theorem Buffer.read_storeFrom_zero (b : Buffer α) {vs : List α} {j : Nat} (hj : j < vs.length) :
    (Buffer.storeFrom b 0 vs).read j = vs[j]? := by
  rw [← Buffer.read_storeFrom b 0 hj, Nat.zero_add]

/-- An operand read of the entries written returns the values. -/
theorem entriesFrom_storeFrom (b : Buffer α) (unwritten : Nat → Fault) (vs : List α) :
    entriesFrom (Buffer.storeFrom b 0 vs) unwritten 0 vs.length = .ok vs := by
  obtain ⟨us, hus, hlen, hread⟩ | ⟨k, hk, hnone, -⟩ := entriesFrom_cases (Buffer.storeFrom b 0 vs) unwritten 0 vs.length
  · rw [hus]
    congr 1
    refine List.ext_getElem? fun k => ?_
    by_cases hk : k < vs.length
    · rw [← hread k hk, Nat.zero_add, Buffer.read_storeFrom_zero b hk]
    · rw [List.getElem?_eq_none (by omega), List.getElem?_eq_none (by omega)]
  · rw [Nat.zero_add, Buffer.read_storeFrom_zero b hk, List.getElem?_eq_none_iff] at hnone
    omega

end

/-- The lanes of a SETC and of a SETP word are the bytes it was made from (R52, R91). -/
theorem byteLane_setWidth (v : Byte) : byteLane (v.setWidth 32) 0 = v := by
  apply BitVec.eq_of_toNat_eq
  have hv := v.isLt
  simp [byteLane, BitVec.extractLsb'_toNat]
  omega

theorem byteLane_point (x y : Byte) :
    byteLane ((x.setWidth 32 <<< 8) ||| y.setWidth 32) 1 = x ∧ byteLane ((x.setWidth 32 <<< 8) ||| y.setWidth 32) 0 = y := by
  constructor <;> ext i hi
  all_goals
    have hhigh : 8 + i < 32 := by omega
    have hlow : i < 32 := by omega
    simp [byteLane, hi, hhigh, hlow]

section

variable {s : State} {rest : List HostStmt}

/-- A program that stores value after value, one statement each, fills the buffer under every schedule. `put b` is the
state with the buffer b. -/
theorem Reaches.stores {α : Type} {stmt : Nat → α → HostStmt} {put : Buffer α → State}
    (hone : ∀ (b : Buffer α) (i : Nat) (v : α) (rest : List HostStmt) (resp : Option BusResp), i < 256 →
      Reaches 1 { put b with host := stmt i v :: rest, resp := resp }
        { put (b.write i v) with host := rest, resp := some .writeOkay })
    (b : Buffer α) (vs : List α) {k : Nat} (hk : k + vs.length ≤ 256) (resp : Option BusResp) :
    ∃ resp', Reaches vs.length
      { put b with host := (vs.zipIdx k).map (fun p => stmt p.2 p.1) ++ rest, resp := resp }
      { put (b.storeFrom k vs) with host := rest, resp := resp' } := by
  induction vs generalizing b k resp with
  | nil => exact ⟨resp, Reaches.refl _⟩
  | cons v vs ih =>
    rw [List.length_cons] at hk ⊢
    obtain ⟨resp', hrest⟩ := ih (b.write k v) (k := k + 1) (by omega) (some .writeOkay)
    exact ⟨resp', Nat.add_comm 1 vs.length ▸ (hone b k v _ resp (by omega)).trans hrest⟩

theorem Reaches.setc {i : Nat} {c : Byte} (hf : s.faulted = false) (hp : s.pend = none) (hi : i < 256)
    (hh : s.host = .setc i c :: rest) : Reaches 1 s { s.setCoef i c with host := rest, resp := some .writeOkay } := by
  rw [HostStmt.setc_eq_write hi] at hh
  have hoff : (BitVec.ofNat 12 (0x400 + 4 * i)).toNat = 0x400 + 4 * i := by rw [BitVec.toNat_ofNat]; omega
  refine Reaches.write (t := s.setCoef i c) hf hp hh fun ts => ?_
  rw [busWrite_coef_of_idle (s := { s with turns := ts }) hp hi hoff, byteLane_setWidth]
  rfl

theorem Reaches.setp {i : Nat} {x y : Byte} (hf : s.faulted = false) (hp : s.pend = none) (hi : i < 256)
    (hh : s.host = .setp i x y :: rest) : Reaches 1 s { s.setPoint i x y with host := rest, resp := some .writeOkay } := by
  rw [HostStmt.setp_eq_write hi] at hh
  have hoff : (BitVec.ofNat 12 (0x800 + 4 * i)).toNat = 0x800 + 4 * i := by rw [BitVec.toNat_ofNat]; omega
  obtain ⟨hx, hy⟩ := byteLane_point x y
  refine Reaches.write (t := s.setPoint i x y) hf hp hh fun ts => ?_
  rw [busWrite_point_of_idle (s := { s with turns := ts }) hp hi hoff, hx, hy]
  rfl

/-- SETC statements load the coefficients, under every schedule. -/
theorem Reaches.setcs {cs : List Byte} (hf : s.faulted = false) (hp : s.pend = none) (hlen : cs.length ≤ 256) :
    ∃ resp, Reaches cs.length { s with host := cs.zipIdx.map (fun p => HostStmt.setc p.2 p.1) ++ rest }
      { s with mem := { s.mem with coef := Buffer.storeFrom s.mem.coef 0 cs }, host := rest, resp := resp } :=
  Reaches.stores (put := fun b => { s with mem := { s.mem with coef := b } })
    (fun b i c rest resp hi => Reaches.setc hf hp hi rfl
      (s := { s with mem := { s.mem with coef := b }, host := .setc i c :: rest, resp := resp }))
    s.mem.coef cs (by omega) s.resp

/-- SETP statements load the points, under every schedule. -/
theorem Reaches.setps {ps : List (Byte × Byte)} (hf : s.faulted = false) (hp : s.pend = none) (hlen : ps.length ≤ 256) :
    ∃ resp, Reaches ps.length { s with host := ps.zipIdx.map (fun p => HostStmt.setp p.2 p.1.1 p.1.2) ++ rest }
      { s with mem := { s.mem with point := Buffer.storeFrom s.mem.point 0 ps }, host := rest, resp := resp } :=
  Reaches.stores (put := fun b => { s with mem := { s.mem with point := b } })
    (stmt := fun i (p : Byte × Byte) => HostStmt.setp i p.1 p.2)
    (fun b i (x, y) rest resp hi => Reaches.setp hf hp hi rfl
      (s := { s with mem := { s.mem with point := b }, host := .setp i x y :: rest, resp := resp }))
    s.mem.point ps (by omega) s.resp

end

/-! ### The statements of combine and of split (R173, R176) -/

theorem HostStmt.command_eq_write (i : Instr) : HostStmt.command i = .write (busAddress 0x000) 4 (encode i) :=
  HostStmt.issue_eq_write _

theorem HostStmt.rd_result_eq_read : HostStmt.rd 0x008 = .read (busAddress 0x008) 4 := HostStmt.rd_eq_read (by decide)

/-- Settles O57: the program loads the points, and its command interpolates over them. -/
theorem combineScriptRecoversByte : Obligations.CombineScriptRecoversByte := by
  intro s points r schedule hp hf hne hlen hr hno
  have hpos : 1 ≤ points.length := List.length_pos_of_ne_nil hne
  obtain ⟨resp, hload⟩ := Reaches.setps (rest := [.command (.interp points.length), .wait, .rd 0x008]) hf hp hlen
  have hresult : wordResult { s.mem with point := Buffer.storeFrom s.mem.point 0 points }
      (encode (.interp points.length)) = .ok (.ok r) := by
    rw [wordResult_of_ok (decode_encode (by simp [Instr.wellFormed, hpos, hlen])), execResult, pointOperand,
      entriesFrom_storeFrom, ← hr]
    rfl
  have hcommand := Reaches.command (rest := []) (r := .ok r) hf hp
    (by rw [HostStmt.command_eq_write, HostStmt.rd_result_eq_read]) hresult
    (s := { s with
      mem := { s.mem with point := Buffer.storeFrom s.mem.point 0 points },
      host := [.command (.interp points.length), .wait, .rd 0x008], resp := resp })
  refine ⟨_, (hload.trans hcommand).run_eq rfl rfl hno, rfl, rfl, rfl, rfl, rfl, rfl, rfl, hf, rfl,
    fun j hj => Buffer.read_storeFrom_zero _ hj⟩

/-- The statements of split for one share: EVAL at x, WAIT and the read of RESULT (R173). -/
def evalStatements (poly : List Byte) (j : Nat) : List HostStmt :=
  [.command (.eval (BitVec.ofNat 8 (j + 1)) (poly.length - 1)), .wait, .rd 0x008]

theorem splitScript_eq (n : Nat) (poly : List Byte) :
    splitScript n poly =
      poly.zipIdx.map (fun p => HostStmt.setc p.2 p.1) ++ (List.range' 0 n).flatMap (evalStatements poly) := by
  rw [splitScript, List.range_eq_range']
  rfl

/-- Three statements for each share. -/
theorem length_flatMap_evalStatements (poly : List Byte) (xs : List Nat) :
    (xs.flatMap (evalStatements poly)).length = 3 * xs.length := by
  rw [List.length_flatMap]
  simp [evalStatements, mul_comm]

/-- What EVAL returns over the coefficients that SETC has loaded. -/
theorem wordResult_eval_storeFrom (m : Memory) {poly : List Byte} (hne : poly ≠ []) (hlen : poly.length ≤ 256) (x : Byte) :
    wordResult { m with coef := Buffer.storeFrom m.coef 0 poly } (encode (.eval x (poly.length - 1))) =
      .ok (.ok (polyEval poly x)) := by
  have hpos : 1 ≤ poly.length := List.length_pos_of_ne_nil hne
  have hwf : (Instr.eval x (poly.length - 1)).wellFormed = true := decide_eq_true (by omega)
  rw [wordResult_of_ok (decode_encode hwf), execResult, coefOperand, Nat.sub_add_cancel hpos,
    entriesFrom_storeFrom]
  rfl

/-- The state of the program of split after the first x shares have been read: the coefficients are loaded, and for
x ≥ 1 the last word read is the value at x. -/
structure SplitProgress (s : State) (n : Nat) (poly : List Byte) (x : Nat) (u : State) : Prop where
  idle : u.pend = none
  unmarked : u.faulted = false
  mem : u.mem = { s.mem with coef := Buffer.storeFrom s.mem.coef 0 poly }
  host : u.host = (List.range' x (n - x)).flatMap (evalStatements poly)
  done : 1 ≤ x → u.done = true ∧ u.err = false
  resp : 1 ≤ x → u.resp = some (.readOkay ((polyEval poly (BitVec.ofNat 8 x)).setWidth 32))

/-- The program of split reads one share after another, under every schedule. -/
theorem Reaches.splitProgress {s : State} {n : Nat} {poly : List Byte} (hp : s.pend = none) (hf : s.faulted = false)
    (hne : poly ≠ []) (hlen : poly.length ≤ 256) {x : Nat} (hx : x ≤ n) :
    ∃ u, Reaches (poly.length + 4 * x) { s with host := splitScript n poly } u ∧ SplitProgress s n poly x u := by
  induction x with
  | zero =>
    obtain ⟨resp, hload⟩ := Reaches.setcs (rest := (List.range' 0 n).flatMap (evalStatements poly)) hf hp hlen
    rw [← splitScript_eq] at hload
    exact ⟨_, hload, hp, hf, rfl, rfl, by omega, by omega⟩
  | succ x ih =>
    obtain ⟨u, hreach, hu⟩ := ih (by omega)
    have hhost : u.host = evalStatements poly x ++ (List.range' (x + 1) (n - (x + 1))).flatMap (evalStatements poly) := by
      rw [hu.host, show n - x = n - (x + 1) + 1 by omega, List.range'_succ, List.flatMap_cons]
    rw [evalStatements, HostStmt.command_eq_write, HostStmt.rd_result_eq_read] at hhost
    have hresult := hu.mem ▸ wordResult_eval_storeFrom s.mem hne hlen (BitVec.ofNat 8 (x + 1))
    exact ⟨_, hreach.trans (Reaches.command hu.unmarked hu.idle hhost hresult), rfl, hu.unmarked, hu.mem, rfl,
      fun _ => ⟨rfl, rfl⟩, fun _ => rfl⟩

/-- Settles O58: the program's progress after n shares is its end, and after x shares its x-th read. -/
theorem splitScriptEvaluates : Obligations.SplitScriptEvaluates := by
  intro s n poly schedule hp hf hn _ hne hlen hno
  refine ⟨?_, fun x hx hxn => ?_⟩
  · obtain ⟨u, hreach, hu⟩ := Reaches.splitProgress hp hf hne hlen (le_refl n)
    have hhost : u.host = [] := by rw [hu.host, Nat.sub_self]; rfl
    obtain ⟨hdone, herr⟩ := hu.done hn
    have hpoint : u.mem.point = s.mem.point := by rw [hu.mem]
    have hcoef (j : Nat) (hj : j < poly.length) : u.mem.coef.read j = poly[j]? := by
      rw [hu.mem]
      exact Buffer.read_storeFrom_zero _ hj
    exact ⟨_, hreach.run_eq hu.idle hhost hno, hu.idle, hdone, herr, hhost, rfl, hu.unmarked, hpoint, hcoef⟩
  · obtain ⟨u, hreach, hu⟩ := Reaches.splitProgress hp hf hne hlen hxn
    obtain ⟨rest, k, -, hk, hrun⟩ := hreach schedule hno
    refine ⟨k, _, by omega, hrun, ?_, hu.resp hx⟩
    exact (congrArg List.length hu.host).trans (by rw [length_flatMap_evalStatements, List.length_range'])

end Sys2Proof.Machine
end

section
/-! split and combine: the shares are those of the ids 1 to n in any order, and any k of them combine to the secret
(42_host_procedures.md R171 to R177, 41_polynomial.md R149). -/

namespace Sys2Proof.Machine

section

variable {n k : Nat} {secret : List Byte} {rng : Nat → Byte} {order : Equiv.Perm (Fin n)} {shares : List Share}

/-! ### The shares of split (R173, R174) -/

theorem length_shareBytes (k : Nat) (rng : Nat → Byte) (x : Byte) (i : Nat) (secret : List Byte) :
    (shareBytes k rng x i secret).length = secret.length := by
  induction secret generalizing i with
  | nil => rfl
  | cons b bs ih => rw [shareBytes, List.length_cons, List.length_cons, ih]

/-- Byte number j of a share is the value of the polynomial of secret byte number j. -/
theorem getElem?_shareBytes (k : Nat) (rng : Nat → Byte) (x : Byte) (i : Nat) (secret : List Byte) (j : Nat) :
    (shareBytes k rng x i secret)[j]? = secret[j]?.map fun b => polyEval (splitPoly k rng (i + j) b) x := by
  induction secret generalizing i j with
  | nil => rfl
  | cons b bs ih =>
    cases j with
    | zero => rfl
    | succ j => rw [shareBytes, List.getElem?_cons_succ, List.getElem?_cons_succ, ih, show i + 1 + j = i + (j + 1) by omega]

/-- The list of shares that split yields in one order. -/
def sharesInOrder (k : Nat) (secret : List Byte) (rng : Nat → Byte) (order : Equiv.Perm (Fin n)) : List Share :=
  (List.finRange n).map fun j => shareOf k secret rng ((order j).val + 1)

/-- A successful split has passed its checks and yields the shares in its order. -/
theorem split_ok (h : split n k secret rng order = .ok shares) :
    1 < k ∧ k ≤ n ∧ n ≤ 255 ∧ shares = sharesInOrder k secret rng order := by
  by_cases hk : k ≤ 1
  · rw [split_of_check_error (splitCheck_of_le_one hk)] at h
    cases h
  by_cases hn : n < k
  · rw [split_of_check_error (splitCheck_of_lt (by omega) hn)] at h
    cases h
  have hcheck := splitCheck_of_ge (n := n) (Nat.lt_of_not_le hk) (Nat.le_of_not_lt hn)
  by_cases hmax : 255 < n
  · rw [if_pos hmax] at hcheck
    rw [split_of_check_error hcheck] at h
    cases h
  · rw [if_neg hmax] at hcheck
    rw [split_of_check_ok hcheck] at h
    cases h
    exact ⟨by omega, by omega, by omega, rfl⟩

theorem split_eq_ok (hk : 1 < k) (hn : k ≤ n) (hmax : n ≤ 255) :
    split n k secret rng order = .ok (sharesInOrder k secret rng order) :=
  split_of_check_ok ((splitCheck_of_ge hk hn).trans (if_neg (Nat.not_lt.2 hmax)))

/-- Reading a list of n entries in two orders gives permutations of each other. -/
theorem map_finRange_perm {α : Type} (f : Fin n → α) (order : Equiv.Perm (Fin n)) :
    ((List.finRange n).map fun j => f (order j)).Perm ((List.finRange n).map f) := by
  have h := (Equiv.Perm.map_finRange_perm order).map f
  rwa [List.map_map] at h

/-- Every permutation of such a list is it in some order. -/
theorem exists_order_of_perm {α : Type} {f : Fin n → α} {xs : List α} (h : xs.Perm ((List.finRange n).map f)) :
    ∃ order : Equiv.Perm (Fin n), xs = (List.finRange n).map fun j => f (order j) := by
  have hf : List.Forall₂ (fun b a => b = f a) ((List.finRange n).map f) (List.finRange n) := by
    simp [List.forall₂_map_left_iff, List.forall₂_same]
  obtain ⟨l, hl, hperm⟩ := List.perm_comp_forall₂ h hf
  have hxs : xs = l.map f := by
    rwa [← List.forall₂_eq_eq_eq, List.forall₂_map_right_iff]
  have hlen : n = l.length := by rw [hperm.length_eq, List.length_finRange]
  refine ⟨(finCongr hlen).trans (List.Nodup.getEquivOfForallMemList l (hperm.nodup_iff.2 (List.nodup_finRange n))
    fun j => hperm.mem_iff.2 (List.mem_finRange j)), ?_⟩
  rw [hxs]
  refine List.ext_getElem (by simp [← hlen]) fun i hi hi' => ?_
  simp

theorem sharesInOrder_perm (order order' : Equiv.Perm (Fin n)) :
    (sharesInOrder k secret rng order).Perm (sharesInOrder k secret rng order') :=
  (map_finRange_perm (fun j => shareOf k secret rng (j.val + 1)) order).trans
    (map_finRange_perm (fun j => shareOf k secret rng (j.val + 1)) order').symm

/-- The shares have the ids 1 to n. -/
theorem mem_sharesInOrder {t : Share} (h : t ∈ sharesInOrder k secret rng order) :
    ∃ x, 1 ≤ x ∧ x ≤ n ∧ t = shareOf k secret rng x := by
  obtain ⟨j, -, rfl⟩ := List.mem_map.1 h
  exact ⟨(order j).val + 1, by omega, (order j).isLt, rfl⟩

/-- Settles O54: the order only permutes the list of the shares 1 to n. -/
theorem splitYieldsShares : Obligations.SplitYieldsShares := by
  intro n k secret rng order shares h
  obtain ⟨hk, hn, hmax, rfl⟩ := split_ok h
  refine ⟨?_, fun t ht => ?_, fun other => ⟨fun hperm => ?_, fun ⟨order', h'⟩ => ?_⟩⟩
  · have hids := map_finRange_perm (fun j : Fin n => j.val + 1) order
    have hrange : (List.finRange n).map (fun j : Fin n => j.val + 1) = List.range' 1 n :=
      List.ext_getElem (by simp) fun i hi hi' => by simp [Nat.add_comm]
    rw [sharesInOrder, List.map_map]
    exact hrange ▸ hids
  · obtain ⟨x, -, -, rfl⟩ := mem_sharesInOrder ht
    exact length_shareBytes _ _ _ _ _
  · obtain ⟨order', rfl⟩ := exists_order_of_perm
      (hperm.trans (map_finRange_perm (fun j => shareOf k secret rng (j.val + 1)) order))
    exact ⟨order', split_eq_ok hk hn hmax⟩
  · obtain ⟨-, -, -, rfl⟩ := split_ok h'
    exact sharesInOrder_perm order' order

/-! ### combine (R175 to R177) -/

/-- combine interpolates the bytes from number b on, each over the points of the shares (R176). -/
theorem combineFrom_ok {bytes : List Byte} {b : Nat}
    (h : ∀ j (hj : j < bytes.length), lagrange0 (sharePoints shares (b + j)) = .ok bytes[j]) :
    combineFrom shares b bytes.length = .ok bytes := by
  induction bytes generalizing b with
  | nil => rfl
  | cons r rs ih =>
    have hfirst : lagrange0 (sharePoints shares b) = .ok r := h 0 (Nat.succ_pos _)
    have hrest : combineFrom shares (b + 1) rs.length = .ok rs := ih fun j hj => by
      rw [show b + 1 + j = b + (j + 1) by omega]
      exact h (j + 1) (Nat.succ_lt_succ hj)
    rw [List.length_cons, combineFrom, hfirst]
    simp only [hrest]

/-- Shares of one length and with distinct ids pass the check. -/
theorem combine_of_distinct {len : Nat} (hne : shares ≠ []) (hlen : ∀ t ∈ shares, t.value.length = len)
    (hids : (shares.map Share.id).Nodup) : combine shares = combineFrom shares 0 len := by
  have hcheck : combineCheck shares = .ok () :=
    (combineCheck_of_length_eq hne fun t ht u hu => (hlen t ht).trans (hlen u hu).symm).trans (if_pos hids)
  rw [combine, hcheck]
  cases shares with
  | nil => exact absurd rfl hne
  | cons t r => exact congrArg (combineFrom (t :: r) 0) (hlen t List.mem_cons_self)

theorem length_splitPoly (hk : 1 < k) (i : Nat) (b : Byte) : (splitPoly k rng i b).length = k := by
  simp [splitPoly]
  omega

/-- The secret byte is the constant term of its polynomial. -/
theorem polyEval_splitPoly_zero (k : Nat) (rng : Nat → Byte) (i : Nat) (b : Byte) :
    polyEval (splitPoly k rng i b) 0x00 = b := by
  rw [splitPoly]
  cases (List.range (k - 1)).map fun j => rng (i * (k - 1) + j) with
  | nil => rfl
  | cons c cs =>
    rw [polyEval_cons, gmul_zero_right]
    exact BitVec.zero_xor

/-- Byte number j of the share with id x, as combine reads it. -/
theorem getD_shareOf {j : Nat} (hj : j < secret.length) (x : Nat) :
    (shareOf k secret rng x).value.getD j 0 = polyEval (splitPoly k rng j secret[j]) (BitVec.ofNat 8 x) := by
  rw [List.getD_eq_getElem?_getD, shareOf, getElem?_shareBytes, List.getElem?_eq_getElem hj, Nat.zero_add]
  rfl

/-- Settles O56: for each byte, the chosen shares are at least k points, with distinct x, of a polynomial with k
coefficients whose value at 0 is the byte. -/
theorem splitCombineRoundTrip : Obligations.SplitCombineRoundTrip := by
  intro n k secret rng order shares chosen h hsub hnodup hlen
  obtain ⟨hk, -, hmax, rfl⟩ := split_ok h
  have hchosen (t : Share) (ht : t ∈ chosen) : t.id < 256 ∧ t = shareOf k secret rng t.id := by
    obtain ⟨x, -, hx, rfl⟩ := mem_sharesInOrder (hsub ht)
    exact ⟨Nat.lt_succ_of_le (hx.trans hmax), rfl⟩
  have hinj : ∀ t ∈ chosen, ∀ u ∈ chosen, BitVec.ofNat 8 t.id = BitVec.ofNat 8 u.id → t = u := by
    intro t ht u hu hid
    obtain ⟨hlt, htid⟩ := hchosen t ht
    obtain ⟨hlu, huid⟩ := hchosen u hu
    have hnat := congrArg BitVec.toNat hid
    rw [BitVec.toNat_ofNat, BitVec.toNat_ofNat, Nat.mod_eq_of_lt hlt, Nat.mod_eq_of_lt hlu] at hnat
    rw [htid, huid, hnat]
  have hids : (chosen.map Share.id).Nodup :=
    hnodup.map_on fun t ht u hu hid => hinj t ht u hu (congrArg (BitVec.ofNat 8) hid)
  have hne : chosen ≠ [] := List.ne_nil_of_length_pos (by omega)
  have hlengths (t : Share) (ht : t ∈ chosen) : t.value.length = secret.length := by
    rw [(hchosen t ht).2]
    exact length_shareBytes _ _ _ _ _
  rw [combine_of_distinct hne hlengths hids]
  refine combineFrom_ok fun j hj => ?_
  have hxs : ((sharePoints chosen j).map Prod.fst).Nodup := by
    rw [sharePoints, List.map_map]
    exact hnodup.map_on hinj
  have hpoints : ∀ q ∈ sharePoints chosen j, q.2 = polyEval (splitPoly k rng j secret[j]) q.1 := by
    intro q hq
    obtain ⟨t, ht, rfl⟩ := List.mem_map.1 hq
    rw [(hchosen t ht).2]
    exact getD_shareOf hj _
  have hcount : (splitPoly k rng j secret[j]).length ≤ (sharePoints chosen j).length := by
    rw [length_splitPoly hk, sharePoints, List.length_map]
    exact hlen
  rw [Nat.zero_add, lagrange0_of_polynomial hxs hcount hpoints, polyEval_splitPoly_zero]

end

end Sys2Proof.Machine
end
